-- ==== Sys2Proof/Word.lean ====
section
/-!
DEFINITION. The word types of ADSP (spec/00_scope.md R6, R7).
XLEN is 32 (a PU operand or result, an address), a lane is 16 bits, a byte of memory 8 bits, a host
register number 5 bits.
-/
namespace Sys2Proof

/-- A 32-bit word `w32`: a PU operand or result, a host register, an address (R6, R8). -/
abbrev Word := BitVec 32

/-- A 16-bit lane or sample `w16` (R6, R24, R26). -/
abbrev Half := BitVec 16

/-- A byte of the buffer port (R55) or a byte lane. -/
abbrev Byte := BitVec 8

/-- The number of a host general register `x0`..`x31` (R21), a 5-bit field of the R format (R71). -/
abbrev RegIdx := BitVec 5

end Sys2Proof
end

