-- ==== Sys2Proof/Config.lean ====
section
/-!
DEFINITION. What an implementation of ADSP fixes (spec/00_scope.md R6, spec/92_eei_decisions.md D51),
what the spec leaves OPEN (spec/40_primitives.md R104), and the terms in which NSE_PORT_MAP is given
(spec/20_memory.md R59; spec/60_exceptions.md R241).
R6 asks a model to take every row of its table as a configuration field: `Params` holds them, but for
BUF_BASE and BUF_LEN, which come with each command, and CLIP16_NEG_LIMIT, a function with no law. The
values the machine runs with are Machine/Params.lean's. Word.lean's types are XLEN and lane width as
those values give them (`Params.fitsTypes`). NSE_PORT_MAP itself is a field of State, so that every
statement about all states holds for every placement (log entry 21).
-/
namespace Sys2Proof.Config

/-- The implementation parameters of R6, by the names of its table. -/
structure Params where
  /-- XLEN, the width in bits of a PU operand and result (R6, R100). -/
  xlen : Nat
  /-- The lane width in bits (R6, R9). -/
  laneWidth : Nat
  /-- The lanes of a packed word (R6, R9). -/
  lanesPerWord : Nat
  /-- CLIP_CEIL, the engine's input ceiling (R153). -/
  clipCeil : Word
  /-- NOISE_MAX, the upper clamp of the noise estimate, read signed (R155). -/
  noiseMax : Word
  /-- NOISE_SHIFT, the decay shift (R155). -/
  noiseShift : BitVec 5
  /-- ENV_SLOTS, the number of slots of the envelope history (R156). -/
  envSlots : Nat
  /-- ENV_SHIFT, the envelope's rescale shift (R158). -/
  envShift : BitVec 5
  /-- ENV_COEF4, the coefficient word of the `conv4` boxcar (R157). -/
  envCoef4 : Word
  /-- ENV_COEF8, the coefficient word of the `conv8` boxcar (R157). -/
  envCoef8 : Word
  /-- HP_TAPS, low lane (R161). -/
  hpTapLow : Half
  /-- HP_TAPS, high lane (R161). -/
  hpTapHigh : Half
  /-- LMS_SHIFT, the coefficient update shift (R164). -/
  lmsShift : BitVec 5
  /-- CM_RE, real part of the complex mix coefficient (R166). -/
  cmRe : Half
  /-- CM_IM, imaginary part of the complex mix coefficient (R166). -/
  cmIm : Half
  /-- G_MUTE (R168). -/
  gMute : Half
  /-- G_M12, the -12 dB gain (R168). -/
  gM12 : Half
  /-- G_M4, the -4 dB gain (R168, R169). -/
  gM4 : Half
  /-- G_UNITY, the near-unity gain (R168). -/
  gUnity : Half
  /-- ENV_COMP_THR, the compression threshold on the envelope (R169). -/
  envCompThr : Word
  /-- OUT_LIMIT, the final saturation limit (R170). -/
  outLimit : Word
  /-- GAIN_SHIFT, the Q15 rescale of the output (R170). -/
  gainShift : BitVec 5
  /-- HDR_LEN, the container header's length in bytes (R200). -/
  hdrLen : Nat
  /-- ADDR_W, the width of a buffer address in bits (R38). -/
  addrW : Nat
  /-- ENC_*: the major opcode of all ten operations (R72). -/
  encOpcode : BitVec 7
  /-- ENC_*: the `funct3` of every assigned encoding (R73). -/
  encFunct3 : BitVec 3
  /-- ENC_*: the `funct7` of each operation, by its index in the opcode table (R74). -/
  encFunct7 : Vector (BitVec 7) 10
  /-- ENC_*: the `rs2` field of the unary forms (R77). -/
  encUnaryRs2 : RegIdx
  deriving DecidableEq, Repr

/-- The widths of the parameters are those of Word.lean's types, and the lanes fill a word (R6). -/
def Params.fitsTypes (p : Params) : Bool :=
  p.xlen == 32 && p.laneWidth == 16 && p.lanesPerWord * p.laneWidth == p.xlen && p.addrW == p.xlen

/-! ### The NSE's register map -/

/-- The registers the NSE shows at its ports (R241): the inputs of the command port (R150), then its
outputs and the observation port (R33, R37). -/
inductive NseRegister where
  | cmd
  | sampleIn
  | bufBase
  | bufLen
  | noise
  | hist
  | hidx
  | prev
  | d1
  | d2
  | w1
  | w2
  | busy
  | engStatus
  | sampleCount
  | sidx
  | sampleOut
  deriving DecidableEq, Repr

/-- One entry of NSE_PORT_MAP: at a byte address of the host stands one byte of an NSE register, byte 0
the least significant (R59, R241). -/
structure PortCell where
  address : Nat
  register : NseRegister
  byte : Nat
  deriving DecidableEq, Repr

/-! ### Free values -/

/-- What the host reads from an input of the command port, which holds nothing the spec gives a read of
(R35, R150): a FREE VALUE of the address and of the number of the read (log entry 22). -/
opaque commandInputRead : Nat → Nat → Byte

/-- CLIP16_NEG_LIMIT (R104): the result of `clip16` when its limit is negative, a FREE VALUE.
Any word that depends on the two operands alone; it has no body here, so nothing can be proved of
its value (log entry 6). -/
opaque clip16NegLimit : Word → Word → Word

end Sys2Proof.Config
end

