-- ==== Sys2Proof/Machine/Params.lean ====
section
/-!
DEFINITION. The parameter values the machine runs with: the defaults of spec/00_scope.md R6
(spec/92_eei_decisions.md D51; log entry 12).
-/
namespace Sys2Proof.Machine

/-- The defaults of R6's table. -/
def params : Config.Params where
  xlen := 32
  laneWidth := 16
  lanesPerWord := 2
  clipCeil := 16383#32
  noiseMax := 0x40000000#32
  noiseShift := 6#5
  envSlots := 4
  envShift := 3#5
  envCoef4 := 0x01010101#32
  envCoef8 := 0x11111111#32
  hpTapLow := 0x0001#16
  hpTapHigh := 0xFFFF#16
  lmsShift := 12#5
  cmRe := 24576#16
  cmIm := 0xE000#16
  gMute := 0#16
  gM12 := 8231#16
  gM4 := 20675#16
  gUnity := 32767#16
  envCompThr := 32#32
  outLimit := 32767#32
  gainShift := 15#5
  hdrLen := 44
  addrW := 32
  encOpcode := 0b0001011#7
  encFunct3 := 0b000#3
  encFunct7 := #v[0, 1, 2, 3, 4, 5, 6, 7, 8, 9]
  encUnaryRs2 := 0

end Sys2Proof.Machine
end

