-- ==== Sys2Proof/Syntax.lean ====
section
/-!
DEFINITION. The instructions of `Xadsp` (spec/30_encoding.md R74, R75): one constructor per row of
spec/opcode_table.json, in its order. A binary operation names `rd`, `rs1`, `rs2`; a unary one `rd`,
`rs1` (R77, R81). There are no immediates (R75).
-/
namespace Sys2Proof

/-- An `Xadsp` instruction with its register operands (R74, R81). -/
inductive Instr where
  /-- `clip16 rd, rs1, rs2` (R103). -/
  | clip16 (rd rs1 rs2 : RegIdx)
  /-- `abs16 rd, rs1` (R105). -/
  | abs16 (rd rs1 : RegIdx)
  /-- `abs2 rd, rs1` (R107). -/
  | abs2 (rd rs1 : RegIdx)
  /-- `mac16 rd, rs1, rs2` (R108). -/
  | mac16 (rd rs1 rs2 : RegIdx)
  /-- `msub16 rd, rs1, rs2` (R109). -/
  | msub16 (rd rs1 rs2 : RegIdx)
  /-- `conv4 rd, rs1, rs2` (R110). -/
  | conv4 (rd rs1 rs2 : RegIdx)
  /-- `conv8 rd, rs1, rs2` (R111). -/
  | conv8 (rd rs1 rs2 : RegIdx)
  /-- `lmsstep rd, rs1, rs2` (R112). -/
  | lmsstep (rd rs1 rs2 : RegIdx)
  /-- `cmac rd, rs1, rs2` (R113). -/
  | cmac (rd rs1 rs2 : RegIdx)
  /-- `shiftn rd, rs1, rs2` (R114). -/
  | shiftn (rd rs1 rs2 : RegIdx)
  deriving DecidableEq, Repr

/-- The destination register `rd` of an instruction (R71). -/
def Instr.rd : Instr → RegIdx
  | .clip16 rd _ _ | .abs16 rd _ | .abs2 rd _ | .mac16 rd _ _ | .msub16 rd _ _ | .conv4 rd _ _
  | .conv8 rd _ _ | .lmsstep rd _ _ | .cmac rd _ _ | .shiftn rd _ _ => rd

/-- The first source register `rs1`, read as operand `a` (R71). -/
def Instr.rs1 : Instr → RegIdx
  | .clip16 _ r _ | .abs16 _ r | .abs2 _ r | .mac16 _ r _ | .msub16 _ r _ | .conv4 _ r _
  | .conv8 _ r _ | .lmsstep _ r _ | .cmac _ r _ | .shiftn _ r _ => r

/-- The `rs2` field: the second source register, or 0 in the unary forms (R71, R77). -/
def Instr.rs2 : Instr → RegIdx
  | .clip16 _ _ r | .mac16 _ _ r | .msub16 _ _ r | .conv4 _ _ r | .conv8 _ _ r | .lmsstep _ _ r
  | .cmac _ _ r | .shiftn _ _ r => r
  | .abs16 _ _ | .abs2 _ _ => 0

/-- The PU operation code `op`, the operation's index in the opcode map (R74, R100). -/
def Instr.op : Instr → BitVec 4
  | .clip16 _ _ _ => 0
  | .abs16 _ _ => 1
  | .abs2 _ _ => 2
  | .mac16 _ _ _ => 3
  | .msub16 _ _ _ => 4
  | .conv4 _ _ _ => 5
  | .conv8 _ _ _ => 6
  | .lmsstep _ _ _ => 7
  | .cmac _ _ _ => 8
  | .shiftn _ _ _ => 9

end Sys2Proof
end

