-- ==== Sys2Proof/WellFormed.lean ====
section
/-!
DEFINITION. Well-formedness of `Xadsp` encodings (spec/30_encoding.md R71, R73, R74, R77, R78).
Every term of `Instr` is well formed by its type: its register numbers are 5-bit fields and a unary
form has no second source. What can be ill formed is an instruction WORD of the R format; its fields
are the structure `Fields`, and each check below is one condition R78 gives for a word not to be
reserved.
-/
namespace Sys2Proof

open Sys2Proof.Machine (params)

/-- The fields of the R format (R71). -/
structure Fields where
  funct7 : BitVec 7
  rs2 : RegIdx
  rs1 : RegIdx
  funct3 : BitVec 3
  rd : RegIdx
  opcode : BitVec 7
  deriving DecidableEq, Repr

/-- The major opcode is custom-0 (R72); another major opcode is the host's (R79). -/
def Fields.opcodeOk (f : Fields) : Bool := f.opcode == params.encOpcode

/-- `funct3` is 000 (R73). -/
def Fields.funct3Ok (f : Fields) : Bool := f.funct3 == params.encFunct3

/-- `funct7` names one of the ten operations (R74, R78). -/
def Fields.funct7Ok (f : Fields) : Bool := params.encFunct7.toList.contains f.funct7

/-- A unary operation has a zero `rs2` field (R77). -/
def Fields.unaryOk (f : Fields) : Bool :=
  !((f.funct7 == params.encFunct7[1] || f.funct7 == params.encFunct7[2]) && f.rs2 != params.encUnaryRs2)

/-- The fields are those of an assigned encoding: the word is no reserved encoding (R78). -/
def Fields.wellFormed (f : Fields) : Bool :=
  f.opcodeOk && f.funct3Ok && f.funct7Ok && f.unaryOk

end Sys2Proof
end

