-- ==== Sys2Proof/Decode.lean ====
section
/-!
DEFINITION. Decoding and encoding of `Xadsp` words (spec/30_encoding.md R70 to R80).
`decode` is the total function of R80 on a 32-bit word, `decodeBytes` the same on the bytes the host
fetches (little-endian, R53). A word that is no `Xadsp` instruction is rejected by name. The encoder
is written from the same table (R74), whose match and mask columns stand here as `rowMatch` and
`rowMask`. The encodings themselves are the parameter ENC_*, read from `params` (R6, D13; log entry 15).
-/
namespace Sys2Proof

open Sys2Proof.Machine (params)

/-- Why bytes hold no `Xadsp` instruction (R78, R80). -/
inductive Reject where
  /-- Fewer than four bytes are left. -/
  | tooShort
  /-- Another major opcode: the word is the host's own instruction (R79, R80 `NotXadsp`). -/
  | notXadsp
  /-- Reserved: `funct3` is not 000 (R78). -/
  | reservedFunct3
  /-- Reserved: `funct7` is 0001010 or above (R78). -/
  | reservedFunct7
  /-- Reserved: a unary operation with a non-zero `rs2` field (R77, R78). -/
  | reservedRs2
  deriving DecidableEq, Repr

/-- What a word decodes to. -/
inductive Decoded where
  | instr (i : Instr)
  | rejected (r : Reject)
  deriving DecidableEq, Repr

/-- The instruction, if there is one. -/
def Decoded.toOption : Decoded → Option Instr
  | .instr i => some i
  | .rejected _ => none

/-! ### The R format (R71) -/

/-- The fields of a word at the bit positions of R71. -/
def fieldsOf (w : Word) : Fields where
  funct7 := w.extractLsb' 25 7
  rs2 := w.extractLsb' 20 5
  rs1 := w.extractLsb' 15 5
  funct3 := w.extractLsb' 12 3
  rd := w.extractLsb' 7 5
  opcode := w.extractLsb' 0 7

/-- The word with the given fields (R71). -/
def wordOf (f : Fields) : Word :=
  f.funct7 ++ f.rs2 ++ f.rs1 ++ f.funct3 ++ f.rd ++ f.opcode

/-- The major opcode "custom-0" of all ten operations (R72). -/
def encOpcode : BitVec 7 := params.encOpcode

/-- The `funct3` of every assigned encoding (R73). -/
def encFunct3 : BitVec 3 := params.encFunct3

/-- The operation selector (R74): the `funct7` of operation code `op`. Codes 10 to 15 have none. -/
def encFunct7 (op : BitVec 4) : BitVec 7 := (params.encFunct7[op.toNat]?).getD 0

/-- The operation code whose `funct7` this is, the index of R74's table. -/
def opOfFunct7 (funct7 : BitVec 7) : Option Nat := params.encFunct7.toList.findIdx? (· == funct7)

/-! ### Decoder -/

/-- The operation a `funct7` selects, with its operands; `none` for an unassigned one (R74). -/
def selectOp (funct7 : BitVec 7) (rd rs1 rs2 : RegIdx) : Option Instr :=
  match opOfFunct7 funct7 with
  | some 0 => some (.clip16 rd rs1 rs2)
  | some 1 => some (.abs16 rd rs1)
  | some 2 => some (.abs2 rd rs1)
  | some 3 => some (.mac16 rd rs1 rs2)
  | some 4 => some (.msub16 rd rs1 rs2)
  | some 5 => some (.conv4 rd rs1 rs2)
  | some 6 => some (.conv8 rd rs1 rs2)
  | some 7 => some (.lmsstep rd rs1 rs2)
  | some 8 => some (.cmac rd rs1 rs2)
  | some 9 => some (.shiftn rd rs1 rs2)
  | _ => none

/-- The operation takes one source, so its `rs2` field is fixed (R77). -/
def isUnary (i : Instr) : Bool :=
  match i with
  | .abs16 _ _ | .abs2 _ _ => true
  | .clip16 _ _ _ | .mac16 _ _ _ | .msub16 _ _ _ | .conv4 _ _ _ | .conv8 _ _ _ | .lmsstep _ _ _
  | .cmac _ _ _ | .shiftn _ _ _ => false

/-- The decoder of R80, on the fields of a word. -/
def decodeFields (f : Fields) : Decoded :=
  if f.opcode ≠ encOpcode then .rejected .notXadsp
  else if f.funct3 ≠ encFunct3 then .rejected .reservedFunct3
  else
    match selectOp f.funct7 f.rd f.rs1 f.rs2 with
    | none => .rejected .reservedFunct7
    | some i => if isUnary i ∧ f.rs2 ≠ params.encUnaryRs2 then .rejected .reservedRs2 else .instr i

/-- The decoder of 32-bit words (R80). -/
def decode (w : Word) : Decoded := decodeFields (fieldsOf w)

/-- The word is a reserved encoding of the extension (R78). -/
def isReserved (w : Word) : Bool :=
  match decode w with
  | .instr _ | .rejected .tooShort | .rejected .notXadsp => false
  | .rejected .reservedFunct3 | .rejected .reservedFunct7 | .rejected .reservedRs2 => true

/-- A little-endian 32-bit word from its four bytes, the byte at the lowest address first (R53). -/
def wordOfBytes (b0 b1 b2 b3 : Byte) : Word := b3 ++ b2 ++ b1 ++ b0

/-- The four bytes of a word in little-endian order (R53). -/
def bytesOfWord (w : Word) : List Byte :=
  [w.extractLsb' 0 8, w.extractLsb' 8 8, w.extractLsb' 16 8, w.extractLsb' 24 8]

/-- Decoding on any bytes: an instruction is 32 bits long (R70) and little-endian (R53). -/
def decodeBytes : List Byte → Decoded
  | b0 :: b1 :: b2 :: b3 :: _ => decode (wordOfBytes b0 b1 b2 b3)
  | _ => .rejected .tooShort

/-! ### Encoder -/

/-- The fields of an instruction (R71 to R74; `rs2` is fixed in a unary form, R77). -/
def encodeFields (i : Instr) : Fields where
  funct7 := encFunct7 i.op
  rs2 := if isUnary i then params.encUnaryRs2 else i.rs2
  rs1 := i.rs1
  funct3 := encFunct3
  rd := i.rd
  opcode := encOpcode

/-- The instruction word (R74). -/
def encode (i : Instr) : Word := wordOf (encodeFields i)

/-- The bytes of the instruction as the host fetches them (R53). -/
def encodeBytes (i : Instr) : List Byte := bytesOfWord (encode i)

/-! ### The table's match and mask columns (R74) -/

/-- The operation code is of a unary form (R74's operands column). -/
def unaryOp (op : Nat) : Bool := op == 1 || op == 2

/-- Column `match` of R74's row for operation code `op`: the encoding with every register field 0, but
the fixed `rs2` of a unary form. -/
def rowMatch (op : Nat) : Word :=
  wordOf {
    funct7 := encFunct7 (BitVec.ofNat 4 op)
    rs2 := if unaryOp op then params.encUnaryRs2 else 0
    rs1 := 0
    funct3 := encFunct3
    rd := 0
    opcode := encOpcode }

/-- Column `mask` of R74's row for operation code `op`: every bit of `funct7`, `funct3` and the opcode,
and of the `rs2` field of a unary form. -/
def rowMask (op : Nat) : Word :=
  wordOf {
    funct7 := BitVec.allOnes 7
    rs2 := if unaryOp op then BitVec.allOnes 5 else 0
    rs1 := 0
    funct3 := BitVec.allOnes 3
    rd := 0
    opcode := BitVec.allOnes 7 }

/-! ### The host's question about one row of the table -/

/-- The instruction whose `nbits` low bits are `w`, its other bits 0, as the decoder reads it from
the bytes in memory order. -/
def decodeTableWord (nbits w : Nat) : Option Instr :=
  (decodeBytes (bytesOfWord (BitVec.ofNat 32 (w % 2 ^ nbits)))).toOption

end Sys2Proof
end

