-- ==== Sys2Proof/Machine/State.lean ====
section
/-!
DEFINITION. The machine's state (spec/10_state.md R20, R21, R27, R33, R39; spec/41_engine.md R150).
Plain data: the host's registers and pc, the memory, the NSE's Filter State and control state, the
command at its port, the platform's placement of the NSE's ports and what is driven there, and the list
of what the environment does next. The PU and the Container Gate
have no state (R20, R22).
-/
namespace Sys2Proof.Machine

/-- Why the machine has no further step (R13, R233). Neither is a hardware exception. -/
inductive Fault where
  /-- `ModelFault(AddressWrap)`: PROCESS was given BUF_BASE + BUF_LEN > 2^32. Raised by the step after
  the one that marked the state FAULTED. Safe: the spec gives such a launch no meaning (R233). -/
  | addressWrap
  /-- `ModelFault(BufferOverrun)`: the container declares a payload past BUF_LEN. Raised by the step
  after the one that marked the state FAULTED. Safe: the spec gives it no meaning (R207, R233). -/
  | bufferOverrun
  deriving DecidableEq, Repr

/-- Why a step gives no meaning to what the host core would do next. -/
inductive Refusal where
  /-- An instruction of the table without a meaning yet. Raised by `exec` alone; safe. -/
  | notModelled (mnemonic : String)
  /-- The word at the pc is neither `Xadsp` nor one of the fifteen host instructions the spec uses:
  the host core's own instructions are out of scope (R5). Raised by the host's turn; safe. -/
  | hostInstruction (word : Word)
  /-- An IllegalInstruction has been handed to the host, whose trap machinery is out of scope (R5,
  R231). Raised by the host's turn after it; safe. -/
  | hostTrapPending (word : Word)
  /-- The host would fetch, load, store or jump at a misaligned address: the host's own exception,
  out of scope (R5, R55). Raised by the host's turn; safe. -/
  | hostMisaligned (address : Word)
  deriving DecidableEq, Repr

/-- ENG_STATUS (R33). Its reserved code 3 is never written and a read never returns it (I7). -/
inductive EngStatus where
  | idle
  | done
  | rejected
  deriving DecidableEq, Repr

/-- The Filter State (R27). -/
structure FilterState where
  /-- NOISE, the noise-energy estimate, read signed. -/
  noise : Word
  /-- HIST, four unsigned byte slots, slot `k` at bits `8k+7 .. 8k`. -/
  hist : Word
  /-- HIDX, the rotating write index into HIST. -/
  hidx : BitVec 2
  /-- PREV, the previous clipped sample, read signed. -/
  prev : Half
  /-- D1, the previous high-pass difference, read signed. -/
  d1 : Word
  /-- D2, the second-previous high-pass difference, read signed. -/
  d2 : Word
  /-- W1, the first adaptive coefficient, read signed. -/
  w1 : Word
  /-- W2, the second adaptive coefficient, read signed. -/
  w2 : Word
  deriving DecidableEq, Repr

/-- The Filter State at the start of a stream and after reset: all zero (R29, R39). -/
def FilterState.zero : FilterState where
  noise := 0
  hist := 0
  hidx := 0
  prev := 0
  d1 := 0
  d2 := 0
  w1 := 0
  w2 := 0

/-- The NSE's control state (R33), with the buffer of the PROCESS in progress (R35, R172). -/
structure Control where
  /-- BUSY: a PROCESS command is executing. -/
  busy : Bool
  /-- ENG_STATUS, the outcome of the last PROCESS. -/
  engStatus : EngStatus
  /-- SAMPLE_COUNT of the last accepted container, unsigned. -/
  sampleCount : Word
  /-- SIDX, the index of the next sample PROCESS handles, unsigned. -/
  sidx : Word
  /-- SAMPLE_OUT, the output of the last STEP or PROCESS sample. -/
  sampleOut : Half
  /-- BUF_BASE as sampled when the PROCESS in progress was accepted; 0 while none is (R35). -/
  bufBase : Word
  /-- BUF_LEN as sampled when the PROCESS in progress was accepted; 0 while none is (R35). -/
  bufLen : Word
  deriving DecidableEq, Repr

/-- The control state after reset (R39). -/
def Control.zero : Control where
  busy := false
  engStatus := .idle
  sampleCount := 0
  sidx := 0
  sampleOut := 0
  bufBase := 0
  bufLen := 0

/-- The inputs of the command port (R150), as the host drives them when it presents a command. -/
structure PortInputs where
  /-- CMD, a command code of R83. -/
  cmd : BitVec 2
  /-- SAMPLE_IN, used by STEP. -/
  sampleIn : Half
  /-- BUF_BASE, used by PROCESS. -/
  bufBase : Word
  /-- BUF_LEN, used by PROCESS. -/
  bufLen : Word
  deriving DecidableEq, Repr

/-- One thing the environment does (R15, R62, R150, R260, R268; log entry 1). -/
inductive Input where
  /-- The host core's turn: it executes the instruction at its pc. -/
  | instr
  /-- The NSE's turn. -/
  | engine
  /-- The host presents a command at the port (R150). -/
  | present (p : PortInputs)
  /-- The host, or the harness before a PROCESS, stores one byte (R62, R263): into memory, or into an
  NSE register where NSE_PORT_MAP places one (R59). -/
  | store (address : Word) (value : Byte)
  /-- The host runs code of its own that the spec does not describe (R5, R236), at its pc or, with an
  exception pending, in its handler: it leaves `value` in register `rd`, no exception pending, and goes
  on at `target`, whose two low bits it clears. -/
  | own (rd : RegIdx) (value target : Word)
  /-- A hardware reset of the block (R260). -/
  | reset
  deriving DecidableEq, Repr

/-- Memory: the listed bytes, addresses strictly rising; an unlisted address reads as
`unlistedByte` (log entry 8). -/
abbrev Memory := List Host.Cell

/-- The machine's state. -/
structure State where
  /-- The host's registers `x1`..`x31` (R21); `x0` has no storage. -/
  regs : Vector Word 31
  /-- The host's program counter (R23). -/
  pc : Word
  /-- The word whose IllegalInstruction has been handed to the host (R13, R231). -/
  trap : Option Word
  /-- The byte-addressed memory that the host and the buffer port share (R38, R58, R62). -/
  mem : Memory
  /-- The Filter State (R27). -/
  filter : FilterState
  /-- The NSE's control state (R33). -/
  ctrl : Control
  /-- The command presented at the port and not accepted yet (R150, R266). -/
  port : Option PortInputs
  /-- What the host drives at the command port's inputs through NSE_PORT_MAP (R150, R241): the
  platform's, not the block's, which retains none of them (R35; log entry 21). -/
  driven : PortInputs
  /-- NSE_PORT_MAP, the placement of the NSE's registers in the host's addresses (R59, R241). OPEN: the
  platform's argument to the model, which no step writes (log entry 21). -/
  portMap : List Config.PortCell
  /-- How many loads the host has done; the model's own field, which picks fresh free values (log entry
  22). -/
  draws : Nat
  /-- FAULTED, with the reason: `none` is 0 (R13, R33, R233). -/
  faulted : Option Fault
  /-- What the environment does next, in order; the model's own field (log entry 1). -/
  inputs : List Input
  deriving DecidableEq, Repr

/-- No input driven. -/
def PortInputs.zero : PortInputs where
  cmd := 0
  sampleIn := 0
  bufBase := 0
  bufLen := 0

/-- The machine right after reset (R39, R260). The block's registers have the values R39 gives; the
host's registers and pc, which R39 leaves to the host, are 0 (DESIGN CHOICE, log entry 7); the platform
places no port and drives nothing (DESIGN CHOICE, log entry 21). -/
def State.reset : State where
  regs := Vector.replicate 31 0
  pc := 0
  trap := none
  mem := []
  filter := FilterState.zero
  ctrl := Control.zero
  port := none
  driven := PortInputs.zero
  portMap := []
  draws := 0
  faulted := none
  inputs := []

end Sys2Proof.Machine
end

