-- ==== Sys2Proof/Machine/Ops.lean ====
section
/-!
DEFINITION. The named operations over memory, registers and the pc (spec/00_scope.md R11 to R13,
spec/20_memory.md R51 to R55, spec/60_exceptions.md R231, R233).
-/
namespace Sys2Proof.Machine

/-! ### Memory -/

/-- What an address that memory does not list reads as. DESIGN CHOICE (log entry 8): the spec gives
memory no contents after power-on. -/
def unlistedByte : Byte := 0

/-- The number of byte addresses (R38). -/
def addressLimit : Nat := 4294967296

/-- One byte of memory. -/
def readByte : Memory → Nat → Byte
  | [], _ => unlistedByte
  | (k, b) :: m, a => if k = a then b else readByte m a

/-- Memory with `b` at address `a`, in canonical form. -/
def writeByte : Memory → Nat → Byte → Memory
  | [], a, b => if b = unlistedByte then [] else [(a, b)]
  | (k, c) :: m, a, b =>
    if k < a then (k, c) :: writeByte m a b
    else if k = a then (if b = unlistedByte then m else (a, b) :: m)
    else if b = unlistedByte then (k, c) :: m else (a, b) :: (k, c) :: m

/-- The canonical form, all listed addresses being at least `lo`: addresses strictly rising and in
the address space, no entry equal to what an unlisted address reads as. -/
def memoryWfFrom (lo : Nat) : Memory → Bool
  | [] => true
  | (k, b) :: m =>
    decide (lo ≤ k) && decide (k < addressLimit) && decide (b ≠ unlistedByte) && memoryWfFrom (k + 1) m

/-- The canonical form of memory. -/
def Memory.wf (m : Memory) : Bool := memoryWfFrom 0 m

/-- `MemRead(addr, n)`: `n` bytes as one little-endian unsigned number (R12, R51). -/
def memRead (m : Memory) (a : Nat) : Nat → Nat
  | 0 => 0
  | n + 1 => (readByte m a).toNat + 256 * memRead m (a + 1) n

/-- `MemWrite(addr, n, v)`: the `n` low bytes of `v`, little-endian (R12, R51). -/
def memWrite (m : Memory) (a : Nat) : Nat → Nat → Memory
  | 0, _ => m
  | n + 1, v => memWrite (writeByte m a (BitVec.ofNat 8 v)) (a + 1) n (v / 256)

/-- The `n` bytes at `a` and above, lowest address first. -/
def memBytes (m : Memory) (a : Nat) : Nat → List Byte
  | 0 => []
  | n + 1 => readByte m a :: memBytes m (a + 1) n

/-! ### Host registers and pc -/

/-- `x[r]`: register 0 reads 0 (R11, R21). -/
def State.readReg (s : State) (r : RegIdx) : Word :=
  if r = 0 then 0 else (s.regs[r.toNat - 1]?).getD 0

/-- `x[r] <- v`: a write to register 0 is discarded (R11, R21). -/
def State.writeReg (s : State) (r : RegIdx) (v : Word) : State :=
  if r = 0 then s else { s with regs := s.regs.setIfInBounds (r.toNat - 1) v }

/-- `pc <- target` (R11). -/
def State.setPc (s : State) (target : Word) : State := { s with pc := target }

/-- `pc <- pc + 4`, modulo 2^32 (R23). -/
def State.advancePc (s : State) : State := s.setPc (s.pc + 4)

/-! ### Exceptions and model faults -/

/-- `raise IllegalInstruction(word)` (R13, R231): the word is handed to the host's trap. No register
is written and the pc stays at the instruction. What the host does with it is out of scope (R5). -/
def State.raiseIllegal (s : State) (word : Word) : State := { s with trap := some word }

/-- The end of the host's own handling of the exception, which leaves the host at `target`. The block
has no return from trap (R236); the host's pc has its two low bits clear (log entry 9). -/
def State.leaveTrap (s : State) (target : Word) : State :=
  { s with trap := none, pc := target &&& 0xFFFFFFFC#32 }

/-- `fault ModelFault(reason)`: the state is marked FAULTED (R13, R233). -/
def State.markFault (s : State) (reason : Fault) : State := { s with faulted := some reason }

end Sys2Proof.Machine
end

