-- ==== Sys2Proof/Machine/Operands.lean ====
section
/-!
DEFINITION. How operand words are read and results are packed (spec/00_scope.md R8 to R10): signed
and unsigned readings, lanes, bytes, nibbles, saturation and floor shifts over exact integers.
-/
namespace Sys2Proof.Machine

/-- `s32(w)`: the signed reading (R8). -/
def s32 (w : Word) : Int := w.toInt

/-- `u32(w)`: the unsigned reading (R8). -/
def u32 (w : Word) : Int := w.toNat

/-- `wrap32(i)`: the 32-bit pattern congruent to `i` (R8). -/
def wrap32 (i : Int) : Word := BitVec.ofInt 32 i

/-- `wrap16(i)`: the 16-bit pattern congruent to `i` (R8). -/
def wrap16 (i : Int) : Half := BitVec.ofInt 16 i

/-- `sext_16(v)`: the signed reading of a 16-bit pattern (R8). -/
def sext16 (v : Half) : Int := v.toInt

/-- `sat(i, lo, hi)` (R8). -/
def sat (i lo hi : Int) : Int := max lo (min hi i)

/-- `i >> n` on integers: floor division by `2^n` (R8). -/
def asr (i : Int) (n : Nat) : Int := i / ((2 ^ n : Nat) : Int)

/-- Lane `i` of a packed word, signed: lane 0 is the low one (R6, R9). -/
def lane (w : Word) (i : Fin params.lanesPerWord) : Int :=
  (w.extractLsb' (params.laneWidth * i) params.laneWidth).toInt

/-- The low lane, bits 15:0, signed (R9). -/
def lane0 (w : Word) : Int := lane w ⟨0, by decide⟩

/-- The high lane, bits 31:16, signed (R9). -/
def lane1 (w : Word) : Int := lane w ⟨1, by decide⟩

/-- The packed word of two lanes; each keeps its low 16 bits (R9). -/
def pack (lo hi : Int) : Word := wrap16 hi ++ wrap16 lo

/-- Unsigned byte lane `i` of a word (R10). -/
def byteLane (w : Word) (i : Nat) : Nat := (w.extractLsb' (8 * i) 8).toNat

/-- Unsigned nibble lane `i` of a word (R10). -/
def nibbleLane (w : Word) (i : Nat) : Nat := (w.extractLsb' (4 * i) 4).toNat

/-- A shift amount as the operand word `shiftn` takes it. -/
def shamtWord (n : BitVec 5) : Word := n.setWidth 32

end Sys2Proof.Machine
end

