-- ==== Sys2Proof/Machine/Primitives.lean ====
section
/-!
DEFINITION. The ten operations of the Primitive Unit as functions of packed words
(spec/40_primitives.md R100 to R115). Each is total; no operation traps or keeps state (R22, R102).
-/
namespace Sys2Proof.Machine

/-- `clip16` (R103): each lane saturated to [-L, L]. A negative limit leaves the interval empty and
the result is the free value CLIP16_NEG_LIMIT (R104; log entry 6). -/
def puClip16 (a b : Word) : Word :=
  let l := s32 b
  if l < 0 then Config.clip16NegLimit a b
  else pack (sat (lane0 a) (-l) l) (sat (lane1 a) (-l) l)

/-- The absolute value of one lane, saturated at the signed minimum (R105, R106). -/
def absLane (v : Int) : Int := if v = -32768 then 32767 else (v.natAbs : Int)

/-- `abs16` (R105). -/
def puAbs16 (a : Word) : Word := pack (absLane (lane0 a)) (absLane (lane1 a))

/-- `abs2` (R107): the sum of the lanes' squares. -/
def puAbs2 (a : Word) : Word := wrap32 (lane0 a * lane0 a + lane1 a * lane1 a)

/-- The 2-tap dot product of `mac16` and `lmsstep` (R108, R112). -/
def tapSum (a b : Word) : Int := lane0 a * lane0 b + lane1 a * lane1 b

/-- `mac16` (R108). -/
def puMac16 (a b : Word) : Word := wrap32 (tapSum a b)

/-- `msub16` (R109): the 2-tap difference of products. -/
def puMsub16 (a b : Word) : Word := wrap32 (lane0 a * lane0 b - lane1 a * lane1 b)

/-- `conv4` (R110): the sum of four unsigned byte products. -/
def puConv4 (a b : Word) : Word :=
  BitVec.ofNat 32
    (byteLane a 0 * byteLane b 0 + byteLane a 1 * byteLane b 1 + byteLane a 2 * byteLane b 2
      + byteLane a 3 * byteLane b 3)

/-- `conv8` (R111): the sum of eight unsigned nibble products. -/
def puConv8 (a b : Word) : Word :=
  BitVec.ofNat 32
    (nibbleLane a 0 * nibbleLane b 0 + nibbleLane a 1 * nibbleLane b 1
      + nibbleLane a 2 * nibbleLane b 2 + nibbleLane a 3 * nibbleLane b 3
      + nibbleLane a 4 * nibbleLane b 4 + nibbleLane a 5 * nibbleLane b 5
      + nibbleLane a 6 * nibbleLane b 6 + nibbleLane a 7 * nibbleLane b 7)

/-- `lmsstep` (R112): the same function as `mac16`. -/
def puLmsstep (a b : Word) : Word := wrap32 (tapSum a b)

/-- `cmac` (R113): the Q15 complex product, real part in lane 0, floor shift, lanes saturated. -/
def puCmac (a b : Word) : Word :=
  let re := asr (lane0 a * lane0 b - lane1 a * lane1 b) 15
  let im := asr (lane0 a * lane1 b + lane1 a * lane0 b) 15
  pack (sat re (-32768) 32767) (sat im (-32768) 32767)

/-- The shift amount of `shiftn`: bits 4:0 of the operand (R115). -/
def shiftAmount (b : Word) : Nat := (b.extractLsb' 0 5).toNat

/-- The rounded shift of an exact integer, round half up (R114). -/
def roundShift (v : Int) (n : Nat) : Int :=
  if n = 0 then v else asr (v + ((2 ^ (n - 1) : Nat) : Int)) n

/-- `shiftn` (R114). -/
def puShiftn (a b : Word) : Word := wrap32 (roundShift (s32 a) (shiftAmount b))

/-- A word at the PU's port: XLEN bits (R6, R100). -/
abbrev PuWord := BitVec params.xlen

/-- The PU port (R100): `y = F_op(a, b)`. Codes 10 to 15 are reserved and never driven. -/
def puPort (op : BitVec 4) (a b : PuWord) : Option PuWord :=
  match op.toNat with
  | 0 => some (puClip16 a b)
  | 1 => some (puAbs16 a)
  | 2 => some (puAbs2 a)
  | 3 => some (puMac16 a b)
  | 4 => some (puMsub16 a b)
  | 5 => some (puConv4 a b)
  | 6 => some (puConv8 a b)
  | 7 => some (puLmsstep a b)
  | 8 => some (puCmac a b)
  | 9 => some (puShiftn a b)
  | _ => none

end Sys2Proof.Machine
end

