-- ==== Sys2Proof/Machine/Xadsp.lean ====
section
/-!
DEFINITION. The meanings of the ten `Xadsp` instructions: the common step of spec/40_primitives.md
R101 around each operation. Sources are read before the destination is written; nothing but `x[rd]`
and the pc changes.
-/
namespace Sys2Proof.Machine

/-- What a meaning answers. -/
abbrev Outcome := Host.Outcome State Fault Refusal

/-- The end of the common step (R101): `x[rd] <- y`, `pc <- pc + 4`. -/
def State.retire (s : State) (rd : RegIdx) (y : Word) : State := (s.writeReg rd y).advancePc

/-- The common step of a binary operation (R75, R101). -/
def binaryStep (f : Word → Word → Word) (rd rs1 rs2 : RegIdx) (s : State) : Outcome :=
  .next (s.retire rd (f (s.readReg rs1) (s.readReg rs2)))

/-- The common step of a unary operation; no second operand is read (R75, R101). -/
def unaryStep (f : Word → Word) (rd rs1 : RegIdx) (s : State) : Outcome :=
  .next (s.retire rd (f (s.readReg rs1)))

/-- `clip16 rd, rs1, rs2` (R103, R104). -/
def execClip16 (rd rs1 rs2 : RegIdx) (s : State) : Outcome := binaryStep puClip16 rd rs1 rs2 s

/-- `abs16 rd, rs1` (R105, R106). -/
def execAbs16 (rd rs1 : RegIdx) (s : State) : Outcome := unaryStep puAbs16 rd rs1 s

/-- `abs2 rd, rs1` (R107). -/
def execAbs2 (rd rs1 : RegIdx) (s : State) : Outcome := unaryStep puAbs2 rd rs1 s

/-- `mac16 rd, rs1, rs2` (R108). -/
def execMac16 (rd rs1 rs2 : RegIdx) (s : State) : Outcome := binaryStep puMac16 rd rs1 rs2 s

/-- `msub16 rd, rs1, rs2` (R109). -/
def execMsub16 (rd rs1 rs2 : RegIdx) (s : State) : Outcome := binaryStep puMsub16 rd rs1 rs2 s

/-- `conv4 rd, rs1, rs2` (R110). -/
def execConv4 (rd rs1 rs2 : RegIdx) (s : State) : Outcome := binaryStep puConv4 rd rs1 rs2 s

/-- `conv8 rd, rs1, rs2` (R111). -/
def execConv8 (rd rs1 rs2 : RegIdx) (s : State) : Outcome := binaryStep puConv8 rd rs1 rs2 s

/-- `lmsstep rd, rs1, rs2` (R112). -/
def execLmsstep (rd rs1 rs2 : RegIdx) (s : State) : Outcome := binaryStep puLmsstep rd rs1 rs2 s

/-- `cmac rd, rs1, rs2` (R113). -/
def execCmac (rd rs1 rs2 : RegIdx) (s : State) : Outcome := binaryStep puCmac rd rs1 rs2 s

/-- `shiftn rd, rs1, rs2` (R114, R115). -/
def execShiftn (rd rs1 rs2 : RegIdx) (s : State) : Outcome := binaryStep puShiftn rd rs1 rs2 s

end Sys2Proof.Machine
end

