-- ==== Sys2Proof/Machine/Dispatch.lean ====
section
/-! DEFINITION. The dispatch of an instruction to its meaning (spec/30_encoding.md R74). -/
namespace Sys2Proof.Machine

/-- One instruction (spec/40_primitives.md R101). -/
def exec (i : Instr) (s : State) : Host.Outcome State Fault Refusal :=
  match i with
  | .clip16 rd rs1 rs2 => Sys2Proof.Machine.execClip16 rd rs1 rs2 s
  | .abs16 rd rs1 => Sys2Proof.Machine.execAbs16 rd rs1 s
  | .abs2 rd rs1 => Sys2Proof.Machine.execAbs2 rd rs1 s
  | .mac16 rd rs1 rs2 => Sys2Proof.Machine.execMac16 rd rs1 rs2 s
  | .msub16 rd rs1 rs2 => Sys2Proof.Machine.execMsub16 rd rs1 rs2 s
  | .conv4 rd rs1 rs2 => Sys2Proof.Machine.execConv4 rd rs1 rs2 s
  | .conv8 rd rs1 rs2 => Sys2Proof.Machine.execConv8 rd rs1 rs2 s
  | .lmsstep rd rs1 rs2 => Sys2Proof.Machine.execLmsstep rd rs1 rs2 s
  | .cmac rd rs1 rs2 => Sys2Proof.Machine.execCmac rd rs1 rs2 s
  | .shiftn rd rs1 rs2 => Sys2Proof.Machine.execShiftn rd rs1 rs2 s

end Sys2Proof.Machine
end

