-- ==== Sys2Proof/Machine/Flags.lean ====
section
/-!
DEFINITION. What the block reports. It has no flags and no condition codes (spec/10_state.md R22);
its outputs are the status registers of R33 and the read-only observation port of R37.
-/
namespace Sys2Proof.Machine

/-- The 2-bit code of ENG_STATUS (R33). -/
def EngStatus.code : EngStatus → BitVec 2
  | .idle => 0
  | .done => 1
  | .rejected => 2

/-- FAULTED as a bit (R33). -/
def faultedBit (s : State) : Bool := s.faulted.isSome

/-- The values the observation port returns (R37). -/
structure Observation where
  noise : Word
  hist : Word
  hidx : BitVec 2
  prev : Half
  d1 : Word
  d2 : Word
  w1 : Word
  w2 : Word
  busy : Bool
  engStatus : BitVec 2
  sampleCount : Word
  sidx : Word
  sampleOut : Half
  deriving DecidableEq, Repr

/-- A read of the observation port: the current values, with no side effect (R37). Every state
between two steps lies between two whole samples (R268). -/
def observe (s : State) : Observation where
  noise := s.filter.noise
  hist := s.filter.hist
  hidx := s.filter.hidx
  prev := s.filter.prev
  d1 := s.filter.d1
  d2 := s.filter.d2
  w1 := s.filter.w1
  w2 := s.filter.w2
  busy := s.ctrl.busy
  engStatus := s.ctrl.engStatus.code
  sampleCount := s.ctrl.sampleCount
  sidx := s.ctrl.sidx
  sampleOut := s.ctrl.sampleOut

end Sys2Proof.Machine
end

