-- ==== Sys2Proof/Machine/Engine.lean ====
section
/-!
DEFINITION. One sample through the Noise-Suppression Engine: `SampleStep`, steps 1 to 12
(spec/41_engine.md R153 to R171), over the parameters of spec/00_scope.md R6. Each step is a function
of its own, on exact integers where the spec writes integers and on words where it writes words.
-/
namespace Sys2Proof.Machine

open Config (Params)

/-! ### Steps 1 to 4 -/

/-- Step 1 (R153): the sample in lane 0, clipped to CLIP_CEIL. -/
def clipSample (p : Params) (x : Int) : Int := lane0 (puClip16 (pack x 0) p.clipCeil)

/-- Step 2 (R154): the magnitude `m` of the clipped sample. -/
def magnitude (c : Int) : Int := lane0 (puAbs16 (pack c 0))

/-- Step 2 (R154): the energy `E` of the clipped sample, read unsigned. -/
def energy (c : Int) : Word := puAbs2 (pack c 0)

/-- Step 3 (R155): the new noise estimate. -/
def trackNoise (p : Params) (noise e : Word) : Word :=
  let d := wrap32 (u32 e - s32 noise)
  let n := s32 noise + s32 (puShiftn d (shamtWord p.noiseShift))
  wrap32 (sat n 0 (s32 p.noiseMax))

/-- Step 4a (R156): the top byte of the 16-bit magnitude. -/
def topByte (m : Int) : Byte := (wrap16 m).extractLsb' 8 8

/-- Step 4a (R156): `HIST[8k+7 : 8k] <- b`. -/
def pushSlot (hist : Word) (k : Nat) (b : Byte) : Word :=
  (hist &&& ~~~(0xFF#32 <<< (8 * k))) ||| (b.setWidth 32 <<< (8 * k))

/-- Step 4a (R156): the write index advances around the slots. -/
def nextSlot (p : Params) (hidx : BitVec 2) : BitVec 2 :=
  BitVec.ofNat 2 ((hidx.toNat + 1) % p.envSlots)

/-- Step 4b (R157): the `conv4` boxcar sum `s4`. -/
def boxcar4 (p : Params) (hist : Word) : Int := u32 (puConv4 hist p.envCoef4)

/-- Step 4b (R157): the `conv8` boxcar sum `s8`. -/
def boxcar8 (p : Params) (hist : Word) : Int := u32 (puConv8 hist p.envCoef8)

/-- Step 4c (R158): the envelope estimate `env` of the updated history. -/
def envelope (p : Params) (hist : Word) : Int :=
  max 0 (s32 (puShiftn (wrap32 (boxcar4 p hist + boxcar8 p hist)) (shamtWord p.envShift)))

/-- The Filter State after steps 3 and 4 for the clipped sample `c` (R154 to R156). -/
def track (p : Params) (f : FilterState) (c : Int) : FilterState :=
  { f with
    noise := trackNoise p f.noise (energy c)
    hist := pushSlot f.hist f.hidx.toNat (topByte (magnitude c))
    hidx := nextSlot p f.hidx }

/-! ### Step 5, the silence gate -/

/-- The silence action (R160): the high-pass and LMS history is reset. -/
def silence (f : FilterState) : FilterState :=
  { f with prev := 0, d1 := 0, d2 := 0, w1 := 0, w2 := 0 }

/-! ### Steps 6 to 9 -/

/-- HP_TAPS as a packed word (R161). -/
def hpTaps (p : Params) : Word := p.hpTapHigh ++ p.hpTapLow

/-- Step 6 (R161): the high-pass value `hp`. -/
def highPass (p : Params) (c prev : Int) : Int := s32 (puMac16 (pack c prev) (hpTaps p))

/-- Step 6 (R161): the DC sum `dc`. -/
def dcSum (p : Params) (c prev : Int) : Int := s32 (puMsub16 (pack c prev) (hpTaps p))

/-- Step 7 (R162): the prediction `pred`. -/
def predict (f : FilterState) : Word :=
  puLmsstep (pack (s32 f.d1) (s32 f.d2)) (pack (s32 f.w1) (s32 f.w2))

/-- Step 7 (R163): the prediction error `err`. -/
def predictionError (hp : Int) (pred : Word) : Word := wrap32 (hp - s32 pred)

/-- Step 8 (R164): the new coefficient, from `D1` before it shifts. -/
def adaptedCoef (p : Params) (f : FilterState) (err : Word) : Word :=
  let grad := wrap32 (s32 err * s32 f.d1)
  wrap32 (s32 f.w1 + s32 (puShiftn grad (shamtWord p.lmsShift)))

/-- Steps 7 and 8 on the Filter State (R162 to R165): both coefficients take the one new value, and
the difference history shifts. -/
def lmsUpdate (p : Params) (f : FilterState) (hp : Int) : FilterState :=
  let w := adaptedCoef p f (predictionError hp (predict f))
  { f with w1 := w, w2 := w, d2 := f.d1, d1 := wrap32 hp }

/-- Step 9 (R166): the mixed sample, the real lane of the complex product. -/
def mix (p : Params) (hp dc : Int) : Int :=
  lane0 (puCmac (pack hp dc) (pack (sext16 p.cmRe) (sext16 p.cmIm)))

/-! ### Steps 10 and 11 -/

/-- A scaled threshold, clamped against overflow (R168). -/
def threshold (k n : Int) : Int := min (k * n) 2147483647

/-- Step 10 (R168): the gain level, from the updated noise estimate and the energy. -/
def gainLevel (p : Params) (noise e : Word) : Int :=
  if u32 e > threshold 4 (s32 noise) then sext16 p.gUnity
  else if u32 e > threshold 2 (s32 noise) then sext16 p.gM4
  else if u32 e > s32 noise then sext16 p.gM12
  else sext16 p.gMute

/-- Step 10 (R169): the compression cap. -/
def capGain (p : Params) (env g : Int) : Int :=
  if env > s32 p.envCompThr then min g (sext16 p.gM4) else g

/-- Steps 10 and 11 (R170): zero when mute, else the mixed sample scaled by the gain. -/
def applyGain (p : Params) (mixed g : Int) : Int :=
  if g = sext16 p.gMute then 0
  else
    let scaled := puShiftn (puMac16 (pack mixed 0) (pack g 0)) (shamtWord p.gainShift)
    lane0 (puClip16 (pack (s32 scaled) 0) p.outLimit)

/-- The output of steps 6, 9, 10 and 11 for a sample that is not silent; `f` is the Filter State after
step 4 and `env` its envelope. -/
def gatedOutput (p : Params) (f : FilterState) (c env : Int) : Int :=
  let hp := highPass p c (sext16 f.prev)
  let dc := dcSum p c (sext16 f.prev)
  applyGain p (mix p hp dc) (capGain p env (gainLevel p f.noise (energy c)))

/-- `SampleStep` (R171): the new Filter State and the output sample. Step 12 sets PREV to the clipped
sample on the mute and the gain path alike. -/
def sampleStep (p : Params) (f : FilterState) (x : Int) : FilterState × Int :=
  let c := clipSample p x
  let f1 := track p f c
  let env := envelope p f1.hist
  if env = 0 then (silence f1, 0)
  else
    ({ lmsUpdate p f1 (highPass p c (sext16 f1.prev)) with prev := wrap16 c },
      gatedOutput p f1 c env)

end Sys2Proof.Machine
end

