-- ==== Sys2Proof/Machine/Gate.lean ====
section
/-!
DEFINITION. The Container Gate (spec/42_container_gate.md R200 to R206): validation of the 44-byte
PCM container header in memory, and the sample count. It has no state (R20) and only reads.
-/
namespace Sys2Proof.Machine

open Config (Params)

/-- Header offsets (R200): the tag `RIFF`. -/
def offRiff : Nat := 0
/-- The tag `WAVE` (R200). -/
def offWave : Nat := 8
/-- The tag `fmt ` (R200). -/
def offFmt : Nat := 12
/-- The format code (R200). -/
def offFormat : Nat := 20
/-- The channel count (R200). -/
def offChannels : Nat := 22
/-- The bits per sample (R200). -/
def offBits : Nat := 34
/-- The tag `data` (R200). -/
def offData : Nat := 36
/-- The payload byte length (R200). -/
def offPayloadLen : Nat := 40

/-- The ASCII bytes of `RIFF` (R201). -/
def tagRiff : List Byte := [0x52, 0x49, 0x46, 0x46]
/-- The ASCII bytes of `WAVE` (R201). -/
def tagWave : List Byte := [0x57, 0x41, 0x56, 0x45]
/-- The ASCII bytes of `fmt ` (R201). -/
def tagFmt : List Byte := [0x66, 0x6D, 0x74, 0x20]
/-- The ASCII bytes of `data` (R201). -/
def tagData : List Byte := [0x64, 0x61, 0x74, 0x61]

/-- The four tag checks, byte for byte (R201). -/
def tagsOk (m : Memory) (base : Nat) : Bool :=
  memBytes m (base + offRiff) 4 == tagRiff && memBytes m (base + offWave) 4 == tagWave
    && memBytes m (base + offFmt) 4 == tagFmt && memBytes m (base + offData) 4 == tagData

/-- The three scalar checks (R202). -/
def scalarsOk (m : Memory) (base : Nat) : Bool :=
  memRead m (base + offFormat) 2 == 1 && memRead m (base + offBits) 2 == 16
    && memRead m (base + offChannels) 2 == 1

/-- Two bytes for each 16-bit sample (R206). -/
def bytesPerSample : Nat := 2

/-- `CG_Validate` (R205): the sample count of an accepted container, `none` of a rejected one. A
buffer shorter than the header is rejected (R204). -/
def cgValidate (p : Params) (m : Memory) (base len : Nat) : Option Nat :=
  if len < p.hdrLen then none
  else if tagsOk m base && scalarsOk m base then
    some (memRead m (base + offPayloadLen) 4 / bytesPerSample)
  else none

/-- The offset of sample `i` in the buffer (R26, R200). -/
def sampleOffset (p : Params) (i : Nat) : Nat := p.hdrLen + bytesPerSample * i

end Sys2Proof.Machine
end

