-- ==== Sys2Proof/Machine/Process.lean ====
section
/-!
DEFINITION. The NSE as an agent: its commands and its atomic steps (spec/41_engine.md R150 to R152,
R172; spec/30_encoding.md R83; spec/60_exceptions.md R233, R234; spec/70_reset_and_hazards.md R260).
-/
namespace Sys2Proof.Machine

/-! ### INIT and STEP -/

/-- INIT (R151): the Filter State is zero, no control register changes. -/
def State.initStream (s : State) : State := { s with filter := FilterState.zero }

/-- One sample through the engine: the Filter State advances and SAMPLE_OUT is the output (R152). -/
def State.runSample (s : State) (x : Int) : State :=
  let r := sampleStep params s.filter x
  { s with filter := r.1, ctrl := { s.ctrl with sampleOut := wrap16 r.2 } }

/-! ### PROCESS -/

/-- The start step after the wrap check: BUSY and the buffer are latched, ENG_STATUS is IDLE (R172). -/
def State.launch (s : State) (base len : Word) : State :=
  { s with ctrl := { s.ctrl with busy := true, engStatus := .idle, bufBase := base, bufLen := len } }

/-- The rejection of a container (R172, R208). -/
def State.reject (s : State) : State :=
  { s with ctrl := { s.ctrl with
      sampleCount := 0, sidx := 0, engStatus := .rejected, busy := false, bufBase := 0, bufLen := 0 } }

/-- The acceptance of a container of `n` samples: a new stream starts (R172, R209). -/
def State.acceptContainer (s : State) (n : Nat) : State :=
  { s with ctrl := { s.ctrl with sampleCount := BitVec.ofNat 32 n, sidx := 0 } }.initStream

/-- The start step of PROCESS (R172), its outcomes checked in R234's order. -/
def State.processStart (s : State) (base len : Word) : State :=
  if base.toNat + len.toNat > 2 ^ params.addrW then s.markFault .addressWrap
  else
    let s := s.launch base len
    match cgValidate params s.mem base.toNat len.toNat with
    | none => s.reject
    | some n =>
      if sampleOffset params n > len.toNat then s.markFault .bufferOverrun else s.acceptContainer n

/-- The buffer offset of the sample SIDX names (R172). -/
def State.sampleAt (s : State) : Nat := sampleOffset params s.ctrl.sidx.toNat

/-- The memory address of the sample SIDX names, never wrapped (R54). -/
def State.sampleAddress (s : State) : Nat := s.ctrl.bufBase.toNat + s.sampleAt

/-- The sample SIDX names, as memory holds it (R52). -/
def State.sampleIn (s : State) : Int :=
  sext16 (BitVec.ofNat 16 (memRead s.mem s.sampleAddress bytesPerSample))

/-- One sample of PROCESS, one atomic step (R172): read it, run it, write the output over it. An
offset past the buffer, or an address past the address space, faults before any access (R54); no
PROCESS the start step accepted reaches that (log entry 18). -/
def State.processSample (s : State) : State :=
  if s.sampleAt + bytesPerSample > s.ctrl.bufLen.toNat then s.markFault .bufferOverrun
  else if s.sampleAddress + bytesPerSample > 2 ^ params.addrW then s.markFault .addressWrap
  else
    let t := s.runSample s.sampleIn
    { t with
      mem := memWrite s.mem s.sampleAddress bytesPerSample t.ctrl.sampleOut.toNat
      ctrl := { t.ctrl with sidx := s.ctrl.sidx + 1 } }

/-- The end step of PROCESS (R172); the latched buffer is not retained (R35). -/
def State.processEnd (s : State) : State :=
  { s with ctrl := { s.ctrl with engStatus := .done, busy := false, bufBase := 0, bufLen := 0 } }

/-- A step of the PROCESS in progress: a sample while SIDX < SAMPLE_COUNT, then the end (R172). -/
def State.processNext (s : State) : State :=
  if s.ctrl.sidx.toNat < s.ctrl.sampleCount.toNat then s.processSample else s.processEnd

/-! ### The command port -/

/-- The engine executes a command it has accepted, by its code (R83, R150). -/
def State.runCommand (s : State) (p : PortInputs) : State :=
  match p.cmd.toNat with
  | 0 => s
  | 1 => s.initStream
  | 2 => s.runSample (sext16 p.sampleIn)
  | _ => s.processStart p.bufBase p.bufLen

/-- The host presents a command (R150). -/
def State.present (s : State) (p : PortInputs) : State := { s with port := some p }

/-- The NSE can take a step: a PROCESS is in progress, or a command waits at the port (R150, R244). -/
def State.engineReady (s : State) : Bool := s.ctrl.busy || s.port.isSome

/-- One step of the NSE. While BUSY it goes on with the PROCESS and a presented command is held;
otherwise it accepts the command, if there is one, and executes it (R150, R266). -/
def State.engineStep (s : State) : State :=
  if s.ctrl.busy then s.processNext
  else
    match s.port with
    | some p => { s with port := none }.runCommand p
    | none => s

/-! ### Hardware reset of the block -/

/-- A hardware reset (R260): the block's registers take R39's values, a held command is dropped, a
PROCESS in progress is abandoned. Memory and the host's registers are not the block's (R39). -/
def State.blockReset (s : State) : State :=
  { s with filter := FilterState.zero, ctrl := Control.zero, port := none }

end Sys2Proof.Machine
end

