-- ==== Sys2Proof/Machine/Bus.lean ====
section
/-!
DEFINITION. The host's loads and stores (spec/20_memory.md R59, R62; spec/60_exceptions.md R241). An
address at which NSE_PORT_MAP places a byte of an NSE register reaches that register, every other
address reaches memory. The NSE's own buffer port reaches memory alone (R38, R58). What a host's access
does beyond R33, R37 and R150 is the model's choice (log entries 21, 22).
-/
namespace Sys2Proof.Machine

open Config (NseRegister PortCell)

/-! ### The placement -/

/-- The register byte a placement puts at an address; the first entry for the address counts. -/
def registerAt : List PortCell → Nat → Option (NseRegister × Nat)
  | [], _ => none
  | c :: cs, a => if c.address = a then some (c.register, c.byte) else registerAt cs a

/-- The register byte NSE_PORT_MAP puts at an address (R59, R241). -/
def State.portAt (s : State) (a : Nat) : Option (NseRegister × Nat) := registerAt s.portMap a

/-! ### Loads -/

/-- What a register of the NSE shows the host, as an unsigned number (R33, R37); `none` for an input of
the command port, which holds nothing (R35). -/
def Observation.value (o : Observation) : NseRegister → Option Nat
  | .cmd | .sampleIn | .bufBase | .bufLen => none
  | .noise => some o.noise.toNat
  | .hist => some o.hist.toNat
  | .hidx => some o.hidx.toNat
  | .prev => some o.prev.toNat
  | .d1 => some o.d1.toNat
  | .d2 => some o.d2.toNat
  | .w1 => some o.w1.toNat
  | .w2 => some o.w2.toNat
  | .busy => some o.busy.toNat
  | .engStatus => some o.engStatus.toNat
  | .sampleCount => some o.sampleCount.toNat
  | .sidx => some o.sidx.toNat
  | .sampleOut => some o.sampleOut.toNat

/-- The byte the host reads at an address: of memory, or of the register placed there as it stands, with
no side effect (R37); past its width it reads 0 (DESIGN CHOICE, log entry 21). An input of the command port reads as a free value (log entry 22). -/
def State.busByte (s : State) (a : Nat) : Byte :=
  match s.portAt a with
  | none => readByte s.mem a
  | some (r, k) =>
    match (observe s).value r with
    | some v => BitVec.ofNat 8 (v / 256 ^ k)
    | none => Config.commandInputRead a s.draws

/-- The `n` bytes the host loads from `a` up, as one little-endian number. -/
def State.busRead (s : State) (a : Nat) : Nat → Nat
  | 0 => 0
  | n + 1 => (s.busByte a).toNat + 256 * s.busRead (a + 1) n

/-- A load has been done (log entry 22). -/
def State.countLoad (s : State) : State := { s with draws := s.draws + 1 }

/-! ### Stores -/

/-- `v` with its byte `k` replaced: the bits of the byte past the width of `v` are dropped, and a byte
wholly past it changes nothing (DESIGN CHOICE, log entry 21). -/
def putByte {n : Nat} (v : BitVec n) (k : Nat) (b : Byte) : BitVec n :=
  (v &&& ~~~((BitVec.allOnes 8).setWidth n <<< (8 * k))) ||| (b.setWidth n <<< (8 * k))

/-- The host drives byte `k` of an input of the command port (R150). CMD is 2 bits wide (R83): a byte
stored to it gives its two low bits, and its bits 7:2 are dropped, of which the spec says nothing (DESIGN
CHOICE, log entry 21). Every other register is read-only
to the host, and keeps its value (R33, R37). -/
def PortInputs.drive (p : PortInputs) (r : NseRegister) (k : Nat) (b : Byte) : PortInputs :=
  match r with
  | .cmd => { p with cmd := putByte p.cmd k b }
  | .sampleIn => { p with sampleIn := putByte p.sampleIn k b }
  | .bufBase => { p with bufBase := putByte p.bufBase k b }
  | .bufLen => { p with bufLen := putByte p.bufLen k b }
  | .noise | .hist | .hidx | .prev | .d1 | .d2 | .w1 | .w2 | .busy | .engStatus | .sampleCount
  | .sidx | .sampleOut => p

/-- One byte of a host store, to memory or to the register placed at the address. -/
def State.busWriteByte (s : State) (a : Nat) (b : Byte) : State :=
  match s.portAt a with
  | none => { s with mem := writeByte s.mem a b }
  | some (r, k) => { s with driven := s.driven.drive r k b }

/-- The `n` low bytes of `v`, to `a` and up, low byte first. -/
def State.busWrite (s : State) (a : Nat) : Nat → Nat → State
  | 0, _ => s
  | n + 1, v => (s.busWriteByte a (BitVec.ofNat 8 v)).busWrite (a + 1) n (v / 256)

/-- A store of `n` bytes at `a` writes CMD, which presents a command (R83, R150; log entry 21). -/
def State.writesCmd (s : State) (a n : Nat) : Bool :=
  (List.range n).any fun j => s.portAt (a + j) == some (.cmd, 0)

/-- A host store: all its bytes, then the command it presents, if it writes CMD, with the inputs as they
are then driven (R150). -/
def State.hostWrite (s : State) (a n v : Nat) : State :=
  let t := s.busWrite a n v
  if s.writesCmd a n then t.present t.driven else t

end Sys2Proof.Machine
end

