-- ==== Sys2Proof/Machine/Rv32i.lean ====
section
/-!
DEFINITION. The fifteen instructions of the host that the spec itself uses: those of its programs
(spec/93_implementation_defined.md G17), of its pseudo-instructions (spec/30_encoding.md R82, G12) and
`FENCE.I` (spec/20_memory.md R65, G7). PRESUMED (log entry 10): their encodings and effects are RISC-V's; the
host core's own instructions are outside the block (spec/00_scope.md R5), and the host's turn refuses
every other one by name. The pseudo-instructions of R82 stand at the end.
-/
namespace Sys2Proof.Machine

/-- A host instruction the spec uses. -/
inductive Rv32i where
  | lui (rd : RegIdx) (imm : BitVec 20)
  | addi (rd rs1 : RegIdx) (imm : BitVec 12)
  | slli (rd rs1 : RegIdx) (shamt : BitVec 5)
  | srli (rd rs1 : RegIdx) (shamt : BitVec 5)
  | srai (rd rs1 : RegIdx) (shamt : BitVec 5)
  | add (rd rs1 rs2 : RegIdx)
  | sub (rd rs1 rs2 : RegIdx)
  | bitOr (rd rs1 rs2 : RegIdx)
  | lh (rd rs1 : RegIdx) (imm : BitVec 12)
  | lhu (rd rs1 : RegIdx) (imm : BitVec 12)
  | sh (rs1 rs2 : RegIdx) (imm : BitVec 12)
  | sw (rs1 rs2 : RegIdx) (imm : BitVec 12)
  | bne (rs1 rs2 : RegIdx) (offset : BitVec 13)
  | blt (rs1 rs2 : RegIdx) (offset : BitVec 13)
  | fenceI
  deriving DecidableEq, Repr

/-! ### Decoding -/

/-- The I-format immediate. -/
def immI (w : Word) : BitVec 12 := w.extractLsb' 20 12

/-- The S-format immediate. -/
def immS (w : Word) : BitVec 12 := w.extractLsb' 25 7 ++ w.extractLsb' 7 5

/-- The B-format branch offset. -/
def immB (w : Word) : BitVec 13 :=
  w.extractLsb' 31 1 ++ w.extractLsb' 7 1 ++ w.extractLsb' 25 6 ++ w.extractLsb' 8 4 ++ 0#1

/-- The host instruction a word encodes, if it is one of the fifteen. -/
def decodeRv32i (w : Word) : Option Rv32i :=
  let rd : RegIdx := w.extractLsb' 7 5
  let rs1 : RegIdx := w.extractLsb' 15 5
  let rs2 : RegIdx := w.extractLsb' 20 5
  let funct3 := (w.extractLsb' 12 3).toNat
  let funct7 := (w.extractLsb' 25 7).toNat
  match (w.extractLsb' 0 7).toNat with
  | 0x37 => some (.lui rd (w.extractLsb' 12 20))
  | 0x13 =>
    match funct3, funct7 with
    | 0, _ => some (.addi rd rs1 (immI w))
    | 1, 0 => some (.slli rd rs1 rs2)
    | 5, 0 => some (.srli rd rs1 rs2)
    | 5, 0x20 => some (.srai rd rs1 rs2)
    | _, _ => none
  | 0x33 =>
    match funct3, funct7 with
    | 0, 0 => some (.add rd rs1 rs2)
    | 0, 0x20 => some (.sub rd rs1 rs2)
    | 6, 0 => some (.bitOr rd rs1 rs2)
    | _, _ => none
  | 0x03 =>
    match funct3 with
    | 1 => some (.lh rd rs1 (immI w))
    | 5 => some (.lhu rd rs1 (immI w))
    | _ => none
  | 0x23 =>
    match funct3 with
    | 1 => some (.sh rs1 rs2 (immS w))
    | 2 => some (.sw rs1 rs2 (immS w))
    | _ => none
  | 0x63 =>
    match funct3 with
    | 1 => some (.bne rs1 rs2 (immB w))
    | 4 => some (.blt rs1 rs2 (immB w))
    | _ => none
  | 0x0F =>
    match funct3 with
    | 1 => some .fenceI
    | _ => none
  | _ => none

/-! ### Effects -/

/-- The effective address of a load or store: `x[rs1]` plus the sign-extended immediate. -/
def effectiveAddress (s : State) (rs1 : RegIdx) (imm : BitVec 12) : Word :=
  s.readReg rs1 + imm.signExtend 32

/-- The bytes a host instruction loads or stores: address and count. -/
def Rv32i.access (i : Rv32i) (s : State) : Option (Nat × Nat) :=
  match i with
  | .lh _ rs1 imm | .lhu _ rs1 imm => some ((effectiveAddress s rs1 imm).toNat, 2)
  | .sh rs1 _ imm => some ((effectiveAddress s rs1 imm).toNat, 2)
  | .sw rs1 _ imm => some ((effectiveAddress s rs1 imm).toNat, 4)
  | .lui _ _ | .addi _ _ _ | .slli _ _ _ | .srli _ _ _ | .srai _ _ _ | .add _ _ _ | .sub _ _ _
  | .bitOr _ _ _ | .bne _ _ _ | .blt _ _ _ | .fenceI => none

/-- A host load of 16 bits, extended by `ext`; a misaligned address is the host's own exception. -/
def loadHalf (ext : Half → Word) (rd : RegIdx) (a : Word) (s : State) : Outcome :=
  if a.toNat % 2 ≠ 0 then .refused (.hostMisaligned a)
  else .next (s.countLoad.retire rd (ext (BitVec.ofNat 16 (s.busRead a.toNat 2))))

/-- A host store of `n` bytes; a misaligned address is the host's own exception. -/
def storeBytes (n : Nat) (a v : Word) (s : State) : Outcome :=
  if a.toNat % n ≠ 0 then .refused (.hostMisaligned a)
  else .next (s.hostWrite a.toNat n v.toNat).advancePc

/-- A host branch; a taken branch to a misaligned target is the host's own exception. -/
def branch (taken : Bool) (offset : BitVec 13) (s : State) : Outcome :=
  if taken then
    let target := s.pc + offset.signExtend 32
    if target.toNat % 4 ≠ 0 then .refused (.hostMisaligned target) else .next (s.setPc target)
  else .next s.advancePc

/-- The effect of a host instruction. `FENCE.I` only advances the pc: there is one memory, which a
fetch reads as it stands (R65; log entry 14). -/
def Rv32i.run (i : Rv32i) (s : State) : Outcome :=
  match i with
  | .lui rd imm => .next (s.retire rd (imm ++ 0#12))
  | .addi rd rs1 imm => .next (s.retire rd (s.readReg rs1 + imm.signExtend 32))
  | .slli rd rs1 n => .next (s.retire rd (s.readReg rs1 <<< n.toNat))
  | .srli rd rs1 n => .next (s.retire rd (s.readReg rs1 >>> n.toNat))
  | .srai rd rs1 n => .next (s.retire rd ((s.readReg rs1).sshiftRight n.toNat))
  | .add rd rs1 rs2 => .next (s.retire rd (s.readReg rs1 + s.readReg rs2))
  | .sub rd rs1 rs2 => .next (s.retire rd (s.readReg rs1 - s.readReg rs2))
  | .bitOr rd rs1 rs2 => .next (s.retire rd (s.readReg rs1 ||| s.readReg rs2))
  | .lh rd rs1 imm => loadHalf (·.signExtend 32) rd (effectiveAddress s rs1 imm) s
  | .lhu rd rs1 imm => loadHalf (·.setWidth 32) rd (effectiveAddress s rs1 imm) s
  | .sh rs1 rs2 imm => storeBytes 2 (effectiveAddress s rs1 imm) (s.readReg rs2) s
  | .sw rs1 rs2 imm => storeBytes 4 (effectiveAddress s rs1 imm) (s.readReg rs2) s
  | .bne rs1 rs2 off => branch (s.readReg rs1 != s.readReg rs2) off s
  | .blt rs1 rs2 off => branch (decide (s32 (s.readReg rs1) < s32 (s.readReg rs2))) off s
  | .fenceI => .next s.advancePc

/-- A word that is no `Xadsp` instruction: one of the fifteen, or refused by name (R5, R80). -/
def execHostWord (w : Word) (s : State) : Outcome :=
  match decodeRv32i w with
  | some i => i.run s
  | none => .refused (.hostInstruction w)

/-! ### Pseudo-instructions (R82) -/

/-- `unpack.lo rd, rs`. -/
def unpackLo (rd rs : RegIdx) : List Rv32i := [.slli rd rs 16, .srai rd rd 16]

/-- `unpack.hi rd, rs`. -/
def unpackHi (rd rs : RegIdx) : List Rv32i := [.srai rd rs 16]

/-- `pack rd, rlo, rhi, rtmp`. -/
def packRegs (rd rlo rhi rtmp : RegIdx) : List Rv32i :=
  [.slli rtmp rlo 16, .srli rtmp rtmp 16, .slli rd rhi 16, .bitOr rd rd rtmp]

/-- A straight line of host instructions, one after the other. -/
def runRv32i : List Rv32i → State → Outcome
  | [], s => .next s
  | i :: is, s =>
    match i.run s with
    | .next t => runRv32i is t
    | .fault r => .fault r
    | .refused r => .refused r

end Sys2Proof.Machine
end

