-- ==== Sys2Proof/Machine/Agents.lean ====
section
/-!
DEFINITION. Whose turn it is, and what it does (spec/00_scope.md R15; spec/20_memory.md R62, R65;
spec/30_encoding.md R80; spec/41_engine.md R150; spec/60_exceptions.md R231, R235;
spec/70_reset_and_hazards.md R264, R266, R268). The environment's choices are State's `inputs`; with
none left the NSE moves whenever it can, and the host otherwise (log entry 1).
-/
namespace Sys2Proof.Machine

/-! ### The host's turn -/

/-- The word at the pc, little-endian (R53). -/
def State.fetchWord (s : State) : Word := BitVec.ofNat 32 (memRead s.mem s.pc.toNat 4)

/-- The `n` bytes at `a` meet the buffer of the PROCESS in progress, which the host must keep off
while BUSY = 1 (R62, R264). It goes by the addresses alone: that a host access to an NSE register which
NSE_PORT_MAP places inside the buffer counts too is a DESIGN CHOICE (log entry 4). -/
def State.touchesBuffer (s : State) (a n : Nat) : Bool :=
  s.ctrl.busy && decide (max a s.ctrl.bufBase.toNat <
    min (a + n) (s.ctrl.bufBase.toNat + s.ctrl.bufLen.toNat))

/-- The host's own code at the pc would be fetched from the buffer of the PROCESS in progress (R65,
R264). With an exception pending the host runs its handler instead, which is not at the pc. -/
def State.ownCodeInBuffer (s : State) : Bool := s.trap.isNone && s.touchesBuffer s.pc.toNat 4

/-- The host's code at the pc has no step of any kind now, be it a store, a command or other code of its
own: its command is held (R150, R266; log entry 3), or it would run out of the buffer of the PROCESS in
progress (R65, R264; log entry 4). -/
def State.hostStalled (s : State) : Bool := s.port.isSome || s.ownCodeInBuffer

/-- The host instruction at the pc would load from or store to the buffer of the PROCESS in
progress. -/
def State.dataTouchesBuffer (s : State) : Bool :=
  match decode s.fetchWord with
  | .instr _ => false
  | .rejected _ =>
    match decodeRv32i s.fetchWord with
    | none => false
    | some i =>
      match i.access s with
      | none => false
      | some (a, n) => s.touchesBuffer a n

/-- The host has no step at its pc now: its command is held (R150, R266), or it would fetch from or
access the buffer of the PROCESS in progress (R62, R65, R264; log entry 4). -/
def State.hostBlocked (s : State) : Bool :=
  s.port.isSome || s.touchesBuffer s.pc.toNat 4 || s.dataTouchesBuffer

/-- The host executes the instruction at its pc: an `Xadsp` instruction, one of its own, or a
reserved word, for which it takes its illegal-instruction exception (R80, R231). -/
def hostTurn (s : State) : Outcome :=
  match s.trap with
  | some w => .refused (.hostTrapPending w)
  | none =>
    if s.pc.toNat % 4 ≠ 0 then .refused (.hostMisaligned s.pc)
    else
      match decode s.fetchWord with
      | .instr i => exec i s
      | .rejected .tooShort | .rejected .notXadsp => execHostWord s.fetchWord s
      | .rejected .reservedFunct3 | .rejected .reservedFunct7 | .rejected .reservedRs2 =>
        .next (s.raiseIllegal s.fetchWord)

/-! ### One input -/

/-- The host or the harness stores one byte (R59, R62, R263). -/
def State.hostStore (s : State) (a : Word) (b : Byte) : State := s.hostWrite a.toNat 1 b.toNat

/-- The host has run code of its own (log entry 10). -/
def State.hostOwn (s : State) (rd : RegIdx) (v target : Word) : State :=
  (s.writeReg rd v).leaveTrap target

/-- The agent an input names has no step now, so that the input waits and the NSE moves (R62, R150,
R264, R266). -/
def State.mustWait (s : State) (i : Input) : Bool :=
  match i with
  | .instr => s.hostBlocked
  | .present _ | .own _ _ _ => s.hostStalled
  | .store a _ => s.hostStalled || s.touchesBuffer a.toNat 1
  | .engine => false
  | .reset => false

/-- What an input does when its agent can step. -/
def runInput (i : Input) (s : State) : Outcome :=
  match i with
  | .instr => hostTurn s
  | .engine => .next s.engineStep
  | .present p => .next (s.present p)
  | .store a b => .next (s.hostStore a b)
  | .own rd v target => .next (s.hostOwn rd v target)
  | .reset => .next s.blockReset

/-! ### The turn -/

/-- One step of the machine. A FAULTED state has none (R13, I19). -/
def turn (s : State) : Outcome :=
  match s.faulted with
  | some r => .fault r
  | none =>
    match s.inputs with
    | [] => if s.engineReady then .next s.engineStep else hostTurn s
    | i :: rest =>
      if s.mustWait i then .next s.engineStep else runInput i { s with inputs := rest }

/-- The machine with an instruction word placed where the host fetches next, and nothing in the way of
that fetch: no exception pending, no command held, no PROCESS in progress, no other input first. -/
def placeWord (s : State) (w : Nat) : State :=
  { s with
    mem := memWrite s.mem s.pc.toNat 4 w
    trap := none
    port := none
    faulted := none
    inputs := []
    ctrl := { s.ctrl with busy := false } }

end Sys2Proof.Machine
end

