-- ==== Sys2Proof/Machine/Step.lean ====
section
/-!
DEFINITION. The machine's step (spec/00_scope.md R15) and the placing of a word where the next step
fetches it.
-/
namespace Sys2Proof.Machine

/-- One step: one turn of the agent whose turn it is. -/
def step (s : State) : Host.Outcome State Fault Refusal := turn s

/-- `s` with the instruction whose `nbits` low bits are `w` stored at the pc, so that the next step
fetches and runs it (log entry 14). -/
def State.withFetchWord (s : State) (nbits w : Nat) : State := placeWord s (w % 2 ^ nbits)

end Sys2Proof.Machine
end

