-- ==== Sys2Proof/Safety.lean ====
section
/-!
DEFINITION. The machine's invariant and what counts as a safe state, in the terms the statements use
(spec/10_state.md R30 to R33; spec/20_memory.md R54).
-/
namespace Sys2Proof.Machine

/-- The Filter State's invariants: R30 (one coefficient), R31 (the noise estimate's range), R32 (each
history slot at most 127), and the previous sample within the default ceiling (R153, R171). -/
structure FilterState.Inv (f : FilterState) : Prop where
  coefEqual : f.w1 = f.w2
  noiseNonneg : 0 ≤ s32 f.noise
  noiseAtMost : s32 f.noise ≤ 1073741824
  slotAtMost : ∀ k, k < 4 → byteLane f.hist k ≤ 127
  prevAtLeast : -16383 ≤ sext16 f.prev
  prevAtMost : sext16 f.prev ≤ 16383

/-- The control state's invariants: SIDX lies in 0 .. SAMPLE_COUNT (R33), SAMPLE_COUNT below 2^31
(R206), and no buffer is retained while BUSY = 0 (R35). -/
structure Control.Inv (c : Control) : Prop where
  sidxAtMost : c.sidx.toNat ≤ c.sampleCount.toNat
  countBound : c.sampleCount.toNat < 2147483648
  idleLatch : c.busy = false → c.bufBase = 0 ∧ c.bufLen = 0

/-- The buffer of the PROCESS in progress lies in the address space and holds every sample of it
(R54, R172, R207). -/
def Control.bufferFits (c : Control) : Prop :=
  c.bufBase.toNat + c.bufLen.toNat ≤ 4294967296 ∧ 44 + 2 * c.sampleCount.toNat ≤ c.bufLen.toNat

/-- The invariant every step keeps. -/
structure Invariant (s : State) : Prop where
  memWf : s.mem.wf = true
  pcAligned : s.pc.toNat % 4 = 0
  filterInv : s.filter.Inv
  ctrlInv : s.ctrl.Inv
  bufferFits : s.ctrl.busy = true → s.faulted = none → s.ctrl.bufferFits

/-- A safe state: no model fault has marked it, and the host has no exception to take. -/
def Safe (s : State) : Prop := s.faulted = none ∧ s.trap = none

/-! ### The terms of the statements -/

/-- `t` is `s` after the common step of an `Xadsp` instruction with result `y` (R101): the pc advances
by 4 and `x[rd]` is `y`, or nothing is written when `rd` is 0. Every other register, every byte of
memory and every other piece of state is as before. -/
structure Retires (s t : State) (rd : RegIdx) (y : Word) : Prop where
  pc : t.pc = s.pc + 4
  dest : t.readReg rd = if rd = 0 then 0 else y
  others : ∀ r, r ≠ rd → t.readReg r = s.readReg r
  bytes : ∀ a, readByte t.mem a = readByte s.mem a
  trap : t.trap = s.trap
  filter : t.filter = s.filter
  ctrl : t.ctrl = s.ctrl
  port : t.port = s.port
  driven : t.driven = s.driven
  portMap : t.portMap = s.portMap
  draws : t.draws = s.draws
  faulted : t.faulted = s.faulted
  inputs : t.inputs = s.inputs

/-- The part of the host and its platform agrees in two states: registers, pc and pending exception; what
is driven at the port, the placement of the ports and the count of loads. -/
structure SameHost (s t : State) : Prop where
  regs : t.regs = s.regs
  pc : t.pc = s.pc
  trap : t.trap = s.trap
  driven : t.driven = s.driven
  portMap : t.portMap = s.portMap
  draws : t.draws = s.draws

/-- Every byte of memory reads the same. -/
def SameBytes (s t : State) : Prop := ∀ a, readByte t.mem a = readByte s.mem a

/-- The next step of `s` is the host's turn, which runs on `s'` (`s` without the input it consumed),
where the host can execute the instruction word `w` at its pc. -/
def HostFetches (s s' : State) (w : Word) : Prop :=
  s.faulted = none ∧
  ((s.inputs = [] ∧ s.engineReady = false ∧ s' = s) ∨
    ∃ rest, s.inputs = .instr :: rest ∧ s.hostBlocked = false ∧ s' = { s with inputs := rest }) ∧
  s'.trap = none ∧ s'.pc.toNat % 4 = 0 ∧ s'.fetchWord = w

/-- The next step of `s` is the NSE's turn, which runs on `s'` (`s` without the input it consumed). -/
def EngineMoves (s s' : State) : Prop :=
  s.faulted = none ∧
  ((s.inputs = [] ∧ s.engineReady = true ∧ s' = s) ∨
    (∃ rest, s.inputs = .engine :: rest ∧ s' = { s with inputs := rest }) ∨
    ∃ i rest, s.inputs = i :: rest ∧ s.mustWait i = true ∧ s' = s)

/-- The next step of `s` is the NSE's turn on `s'`, where it accepts the command `p` (R150). -/
def Accepts (s s' : State) (p : PortInputs) : Prop :=
  EngineMoves s s' ∧ s'.ctrl.busy = false ∧ s'.port = some p

/-- A run of steps from `s` to `t` in which the NSE has moved `k` times and no hardware reset has come.
Between the NSE's moves anything else may: the host's turns, its stores, its own code, commands. -/
inductive EngineRun : Nat → State → State → Prop where
  | start (s : State) : EngineRun 0 s s
  | engine {k : Nat} {s t u : State} : EngineRun k s t → (∃ t', EngineMoves t t') → step t = .next u →
      EngineRun (k + 1) s u
  | other {k : Nat} {s t u : State} : EngineRun k s t → (¬∃ t', EngineMoves t t') →
      (∀ rest, t.inputs ≠ .reset :: rest) → step t = .next u → EngineRun k s u

/-- The samples of the payload in memory, for a container of `n` samples at `base` (R26, R52). -/
def payload (m : Memory) (base n : Nat) : List Int :=
  (List.range n).map fun i => sext16 (BitVec.ofNat 16 (memRead m (base + 44 + 2 * i) 2))

/-- The outputs of a stream: `SampleStep` folded over the samples in temporal order (R61, R173). -/
def streamOutputs (f : FilterState) : List Int → List Int
  | [] => []
  | x :: xs => (sampleStep params f x).2 :: streamOutputs (sampleStep params f x).1 xs

/-- The Filter State a stream leaves. -/
def streamFilter (f : FilterState) : List Int → FilterState
  | [] => f
  | x :: xs => streamFilter (sampleStep params f x).1 xs

end Sys2Proof.Machine
end

