-- ==== Sys2Proof/Certificates/Slice0/Obligations.lean ====
section
/-!
DEFINITION. The statements for the provers, from the numbered rules of spec/.
-/

open Sys2Proof Sys2Proof.Machine

/-! ### Encoding (30_encoding.md) -/

/-- Decoding the encoding of any instruction, as a word and as bytes, gives it back (R71, R74, R77,
R80). Every term of `Instr` is well formed by its type. -/
def Obligations.DecodeOfEncodeIsTheInstruction : Prop :=
  ∀ i : Instr, decode (encode i) = .instr i ∧ decodeBytes (encodeBytes i) = .instr i

/-- A word that decodes to an instruction is that instruction's encoding: each word has one meaning
and no bit of it is dropped (R74, R80). -/
def Obligations.EncodeOfDecodeIsTheWord : Prop :=
  ∀ (w : Word) (i : Instr), decode w = .instr i → encode i = w

/-- R74: a word encodes a row's instruction exactly when `(w & mask) = match`, with the operands at
the bits of R71; the operation code is `funct7[3:0]`; no word matches two rows. -/
def Obligations.TableRowsDecodeTheirWords : Prop :=
  ∀ w : Word,
    let rd : RegIdx := w.extractLsb' 7 5
    let rs1 : RegIdx := w.extractLsb' 15 5
    let rs2 : RegIdx := w.extractLsb' 20 5
    (w &&& 0xFE00707F#32 = 0x0000000B#32 ↔ decode w = .instr (.clip16 rd rs1 rs2)) ∧
    (w &&& 0xFFF0707F#32 = 0x0200000B#32 ↔ decode w = .instr (.abs16 rd rs1)) ∧
    (w &&& 0xFFF0707F#32 = 0x0400000B#32 ↔ decode w = .instr (.abs2 rd rs1)) ∧
    (w &&& 0xFE00707F#32 = 0x0600000B#32 ↔ decode w = .instr (.mac16 rd rs1 rs2)) ∧
    (w &&& 0xFE00707F#32 = 0x0800000B#32 ↔ decode w = .instr (.msub16 rd rs1 rs2)) ∧
    (w &&& 0xFE00707F#32 = 0x0A00000B#32 ↔ decode w = .instr (.conv4 rd rs1 rs2)) ∧
    (w &&& 0xFE00707F#32 = 0x0C00000B#32 ↔ decode w = .instr (.conv8 rd rs1 rs2)) ∧
    (w &&& 0xFE00707F#32 = 0x0E00000B#32 ↔ decode w = .instr (.lmsstep rd rs1 rs2)) ∧
    (w &&& 0xFE00707F#32 = 0x1000000B#32 ↔ decode w = .instr (.cmac rd rs1 rs2)) ∧
    (w &&& 0xFE00707F#32 = 0x1200000B#32 ↔ decode w = .instr (.shiftn rd rs1 rs2)) ∧
    (∀ i, decode w = .instr i →
      i.op = w.extractLsb' 25 4 ∧ i.op.toNat = (w.extractLsb' 25 7).toNat) ∧
    ∀ j k, j < 10 → k < 10 → w &&& rowMask j = rowMatch j → w &&& rowMask k = rowMatch k → j = k

/-- R80: the decoder is the total function of the rule, case by case. -/
def Obligations.DecoderIsTheSpecsFunction : Prop :=
  ∀ w : Word,
    if w.extractLsb' 0 7 ≠ 0b0001011#7 then decode w = .rejected .notXadsp
    else if w.extractLsb' 12 3 ≠ 0#3 then isReserved w = true
    else if 10 ≤ (w.extractLsb' 25 7).toNat then isReserved w = true
    else if ((w.extractLsb' 25 7).toNat = 1 ∨ (w.extractLsb' 25 7).toNat = 2) ∧
        w.extractLsb' 20 5 ≠ 0#5 then isReserved w = true
    else ∃ i, decode w = .instr i ∧ i.op.toNat = (w.extractLsb' 25 7).toNat ∧
      i.rd = w.extractLsb' 7 5 ∧ i.rs1 = w.extractLsb' 15 5 ∧ i.rs2 = w.extractLsb' 20 5

/-- R78 and R231: on a reserved word of the extension's opcode space the host takes its
illegal-instruction exception precisely: the word is handed to it, no register is written, the pc
stays at the instruction, and the block records nothing. The three cases of R78 are the reserved
words of major opcode 0001011, and no others. -/
def Obligations.ReservedWordTrapsPrecisely : Prop :=
  (∀ w : Word, isReserved w = true ↔
    w.extractLsb' 0 7 = 0b0001011#7 ∧
      (w.extractLsb' 12 3 ≠ 0#3 ∨ 10 ≤ (w.extractLsb' 25 7).toNat ∨
        (((w.extractLsb' 25 7).toNat = 1 ∨ (w.extractLsb' 25 7).toNat = 2) ∧
          w.extractLsb' 20 5 ≠ 0#5))) ∧
  ∀ (s s' : State) (w : Word), HostFetches s s' w → isReserved w = true →
    ∃ t, step s = .next t ∧ t.trap = some w ∧ t.pc = s.pc ∧
      (∀ r, t.readReg r = s.readReg r) ∧ SameBytes s t ∧ t.filter = s.filter ∧ t.ctrl = s.ctrl ∧
      t.port = s.port ∧ t.driven = s.driven ∧ t.portMap = s.portMap ∧ t.draws = s.draws ∧
      t.faulted = s.faulted ∧ t.inputs = s'.inputs

/-- When the word at the pc decodes to an instruction and it is the host's turn, the step is `exec` of
it, on the state without the input consumed (R53, R80, R101). -/
def Obligations.StepRunsDecodedInstruction : Prop :=
  ∀ (s s' : State) (w : Word) (i : Instr), HostFetches s s' w → decode w = .instr i →
    step s = exec i s'

/-- Words written out from R71 and R74 in 95_test_vectors.md decode to the instructions they stand
for, and reserved ones are rejected by name. -/
def Obligations.SpecWordsDecode : Prop :=
  decode 0x00B5060B#32 = .instr (.clip16 12 10 11) ∧
  decode 0x0206068B#32 = .instr (.abs16 13 12) ∧
  decode 0x06F5080B#32 = .instr (.mac16 16 10 15) ∧
  decode 0x1257030B#32 = .instr (.shiftn 6 14 5) ∧
  decode 0x1400000B#32 = .rejected .reservedFunct7 ∧
  decode 0x0000100B#32 = .rejected .reservedFunct3 ∧
  decode 0x0430000B#32 = .rejected .reservedRs2 ∧
  decode 0x4B050513#32 = .rejected .notXadsp

/-! ### The ten instructions (40_primitives.md) -/

/-- R103: `clip16` with a limit of 0 or more saturates each lane to [-L, L]. It completes in every
state and changes nothing but `x[rd]` and the pc. -/
def Obligations.Clip16SaturatesEachLane : Prop :=
  ∀ (rd rs1 rs2 : RegIdx) (s : State), 0 ≤ s32 (s.readReg rs2) →
    encode (.clip16 rd rs1 rs2) &&& 0xFE00707F#32 = 0x0000000B#32 ∧
    ∃ t y, exec (.clip16 rd rs1 rs2) s = .next t ∧ Retires s t rd y ∧
      lane0 y = max (-s32 (s.readReg rs2)) (min (s32 (s.readReg rs2)) (lane0 (s.readReg rs1))) ∧
      lane1 y = max (-s32 (s.readReg rs2)) (min (s32 (s.readReg rs2)) (lane1 (s.readReg rs1)))

/-- R104: `clip16` with a negative limit completes too, and its result is CLIP16_NEG_LIMIT(a, b), the
free value Config.clip16NegLimit of the two operands alone (log entry 6): this holds whatever that
function is. The engine's two limits are not negative, so it never draws. -/
def Obligations.Clip16NegativeLimitIsTheFreeValue : Prop :=
  (∀ (rd rs1 rs2 : RegIdx) (s : State), s32 (s.readReg rs2) < 0 →
    ∃ t, exec (.clip16 rd rs1 rs2) s = .next t ∧
      Retires s t rd (Config.clip16NegLimit (s.readReg rs1) (s.readReg rs2))) ∧
  0 ≤ s32 params.clipCeil ∧ 0 ≤ s32 params.outLimit

/-- R105 and R106: `abs16` gives each lane's absolute value, and 32767 for a lane of -32768. -/
def Obligations.Abs16TakesEachLanesAbsoluteValue : Prop :=
  ∀ (rd rs1 : RegIdx) (s : State),
    encode (.abs16 rd rs1) &&& 0xFFF0707F#32 = 0x0200000B#32 ∧
    ∃ t y, exec (.abs16 rd rs1) s = .next t ∧ Retires s t rd y ∧
      lane0 y = (if lane0 (s.readReg rs1) = -32768 then 32767 else |lane0 (s.readReg rs1)|) ∧
      lane1 y = (if lane1 (s.readReg rs1) = -32768 then 32767 else |lane1 (s.readReg rs1)|) ∧
      0 ≤ lane0 y ∧ 0 ≤ lane1 y

/-- R107: `abs2` gives the exact sum of the lanes' squares, read unsigned; no wrap loses a bit. -/
def Obligations.Abs2IsTheExactSumOfSquares : Prop :=
  ∀ (rd rs1 : RegIdx) (s : State),
    encode (.abs2 rd rs1) &&& 0xFFF0707F#32 = 0x0400000B#32 ∧
    ∃ t y, exec (.abs2 rd rs1) s = .next t ∧ Retires s t rd y ∧
      u32 y = lane0 (s.readReg rs1) ^ 2 + lane1 (s.readReg rs1) ^ 2

/-- R108: `mac16` gives the exact 2-tap dot product, but for the one case that wraps: all four lanes
-32768 give 0x80000000. -/
def Obligations.Mac16IsTheDotProduct : Prop :=
  ∀ (rd rs1 rs2 : RegIdx) (s : State),
    encode (.mac16 rd rs1 rs2) &&& 0xFE00707F#32 = 0x0600000B#32 ∧
    ∃ t y, exec (.mac16 rd rs1 rs2) s = .next t ∧ Retires s t rd y ∧
      if s.readReg rs1 = 0x80008000#32 ∧ s.readReg rs2 = 0x80008000#32 then y = 0x80000000#32
      else s32 y = lane0 (s.readReg rs1) * lane0 (s.readReg rs2)
        + lane1 (s.readReg rs1) * lane1 (s.readReg rs2)

/-- R109: `msub16` gives the exact 2-tap difference of products; its wrap never acts. -/
def Obligations.Msub16IsTheExactDifference : Prop :=
  ∀ (rd rs1 rs2 : RegIdx) (s : State),
    encode (.msub16 rd rs1 rs2) &&& 0xFE00707F#32 = 0x0800000B#32 ∧
    ∃ t y, exec (.msub16 rd rs1 rs2) s = .next t ∧ Retires s t rd y ∧
      s32 y = lane0 (s.readReg rs1) * lane0 (s.readReg rs2)
        - lane1 (s.readReg rs1) * lane1 (s.readReg rs2)

/-- R110: `conv4` gives the exact sum of the four products of unsigned bytes. -/
def Obligations.Conv4SumsByteProducts : Prop :=
  ∀ (rd rs1 rs2 : RegIdx) (s : State),
    encode (.conv4 rd rs1 rs2) &&& 0xFE00707F#32 = 0x0A00000B#32 ∧
    ∃ t y, exec (.conv4 rd rs1 rs2) s = .next t ∧ Retires s t rd y ∧
      y.toNat = ((List.range 4).map fun i =>
        byteLane (s.readReg rs1) i * byteLane (s.readReg rs2) i).sum ∧
      y.toNat ≤ 260100

/-- R111: `conv8` gives the exact sum of the eight products of unsigned nibbles. -/
def Obligations.Conv8SumsNibbleProducts : Prop :=
  ∀ (rd rs1 rs2 : RegIdx) (s : State),
    encode (.conv8 rd rs1 rs2) &&& 0xFE00707F#32 = 0x0C00000B#32 ∧
    ∃ t y, exec (.conv8 rd rs1 rs2) s = .next t ∧ Retires s t rd y ∧
      y.toNat = ((List.range 8).map fun i =>
        nibbleLane (s.readReg rs1) i * nibbleLane (s.readReg rs2) i).sum ∧
      y.toNat ≤ 1800

/-- R112: `lmsstep` is the same function as `mac16`, and adapts nothing. -/
def Obligations.LmsstepIsTheDotProduct : Prop :=
  ∀ (rd rs1 rs2 : RegIdx) (s : State),
    encode (.lmsstep rd rs1 rs2) &&& 0xFE00707F#32 = 0x0E00000B#32 ∧
    exec (.lmsstep rd rs1 rs2) s = exec (.mac16 rd rs1 rs2) s ∧
    ∃ t y, exec (.lmsstep rd rs1 rs2) s = .next t ∧ Retires s t rd y ∧
      if s.readReg rs1 = 0x80008000#32 ∧ s.readReg rs2 = 0x80008000#32 then y = 0x80000000#32
      else s32 y = lane0 (s.readReg rs1) * lane0 (s.readReg rs2)
        + lane1 (s.readReg rs1) * lane1 (s.readReg rs2)

/-- R113: `cmac` gives the complex product, each numerator exact, shifted by floor division by 2^15
and saturated to 16 bits; the real part in lane 0, the imaginary part in lane 1. -/
def Obligations.CmacIsTheSaturatedComplexProduct : Prop :=
  ∀ (rd rs1 rs2 : RegIdx) (s : State),
    encode (.cmac rd rs1 rs2) &&& 0xFE00707F#32 = 0x1000000B#32 ∧
    ∃ t y, exec (.cmac rd rs1 rs2) s = .next t ∧ Retires s t rd y ∧
      lane0 y = max (-32768) (min 32767
        ((lane0 (s.readReg rs1) * lane0 (s.readReg rs2)
          - lane1 (s.readReg rs1) * lane1 (s.readReg rs2)) / 32768)) ∧
      lane1 y = max (-32768) (min 32767
        ((lane0 (s.readReg rs1) * lane1 (s.readReg rs2)
          + lane1 (s.readReg rs1) * lane0 (s.readReg rs2)) / 32768))

/-- R114 and R115: `shiftn` shifts by the low five bits of its amount; by 0 it returns its operand,
otherwise the operand over 2^n rounded half up, which always fits. -/
def Obligations.ShiftnRoundsHalfUp : Prop :=
  ∀ (rd rs1 rs2 : RegIdx) (s : State),
    encode (.shiftn rd rs1 rs2) &&& 0xFE00707F#32 = 0x1200000B#32 ∧
    ∃ t y, exec (.shiftn rd rs1 rs2) s = .next t ∧ Retires s t rd y ∧
      let n := (s.readReg rs2).toNat % 32
      if n = 0 then y = s.readReg rs1
      else s32 y = (s32 (s.readReg rs1) + 2 ^ (n - 1)) / 2 ^ n ∧
        -1073741824 ≤ s32 y ∧ s32 y ≤ 1073741824

/-- R101: every instruction takes `a` from `x[rs1]` and `b` from `x[rs2]` (0 in the unary forms),
both read before the write, and retires with what the PU port answers for its operation code. The
port answers nothing for the reserved codes 10 to 15 (R100). -/
def Obligations.EveryInstructionRetiresThePortsResult : Prop :=
  (∀ (i : Instr) (s : State), ∃ y t,
    puPort i.op (s.readReg i.rs1) (if i.op = 1 ∨ i.op = 2 then 0 else s.readReg i.rs2) = some y ∧
      exec i s = .next t ∧ Retires s t i.rd y) ∧
  ∀ (op : BitVec 4) (a b : Word), 10 ≤ op.toNat → puPort op a b = none

/-- R79: an instruction with `rd = x0` discards its result and only advances the pc. -/
def Obligations.WriteToX0OnlyAdvancesPc : Prop :=
  ∀ (i : Instr) (s : State), i.rd = 0 → exec i s = .next { s with pc := s.pc + 4 }

/-- R25: unpacking what was packed gives the lanes back, and packing the lanes of a word gives the
word back. -/
def Obligations.PackAndUnpackAreInverse : Prop :=
  (∀ lo hi : Int, -32768 ≤ lo → lo ≤ 32767 → -32768 ≤ hi → hi ≤ 32767 →
    lane0 (pack lo hi) = lo ∧ lane1 (pack lo hi) = hi) ∧
  ∀ w : Word, pack (lane0 w) (lane1 w) = w

/-- R119 and R120: the identities the source states as properties, on all their stated inputs. -/
def Obligations.StatedIdentitiesHold : Prop :=
  (∀ l : Int, 0 ≤ l → l ≤ 32766 → puClip16 (pack (l + 1) (-l - 1)) (wrap32 l) = pack l (-l)) ∧
  (∀ x prev : Int, -32768 ≤ x → x ≤ 32767 → -32768 ≤ prev → prev ≤ 32767 →
    lane0 (pack x prev) = x ∧ lane1 (pack x prev) = prev ∧
    s32 (puMac16 (pack x prev) (pack 1 (-1))) = x - prev ∧
    puMac16 (pack x prev) (pack 1 (-1)) = wrap32 (x - prev) ∧
    s32 (puMsub16 (pack x prev) (pack 1 (-1))) = x + prev ∧
    puMsub16 (pack x prev) (pack 1 (-1)) = wrap32 (x + prev) ∧
    u32 (puAbs2 (pack x prev)) = x * x + prev * prev ∧ 0 ≤ x * x + prev * prev)

/-! ### Registers and memory (00_scope.md, 20_memory.md) -/

/-- R11 (and R21): a register reads what was last written to it; register 0 reads 0 and a write to it
changes nothing. -/
def Obligations.RegisterReadAfterWrite : Prop :=
  ∀ (s : State) (r r' : RegIdx) (v : Word),
    (s.writeReg r v).readReg r' = (if r' = 0 then 0 else if r' = r then v else s.readReg r') ∧
    s.writeReg 0 v = s

/-- R12 and R51: a wide write puts byte j of the value at address + j, low byte first, and a wide read
of the same bytes gives the value back; every other byte reads as before, and memory keeps its
canonical form. -/
def Obligations.WideAccessesAreLittleEndian : Prop :=
  ∀ (m : Memory) (a n v : Nat), m.wf = true → a + n ≤ 4294967296 →
    (memWrite m a n v).wf = true ∧
    memRead (memWrite m a n v) a n = v % 256 ^ n ∧
    (∀ j, j < n → (readByte (memWrite m a n v) (a + j)).toNat = v / 256 ^ j % 256) ∧
    ∀ c, ¬(a ≤ c ∧ c < a + n) → readByte (memWrite m a n v) c = readByte m c

/-! ### SampleStep (41_engine.md) -/

/-- R153 and R154 at the default ceiling: the clipped sample, its magnitude and its energy. -/
def Obligations.ClippedSampleMagnitudeAndEnergy : Prop :=
  ∀ x : Int, -32768 ≤ x → x ≤ 32767 →
    let c := clipSample params x
    c = max (-16383) (min 16383 x) ∧ magnitude c = |c| ∧ u32 (energy c) = c * c ∧
      u32 (energy c) ≤ 268402689

/-- R155 with both values in range: the estimate moves by the rounded 64th of the distance, no wrap and
no clamp acts, and it stops exactly within [-32, 31] of the energy. Approached from below, the estimate
never falls and never passes the energy (R177). -/
def Obligations.NoiseEstimateTracksEnergy : Prop :=
  ∀ noise e : Word, 0 ≤ s32 noise → s32 noise ≤ 1073741824 → u32 e ≤ 1073741824 →
    let n := s32 noise
    let n' := s32 (trackNoise params noise e)
    n' = n + (u32 e - n + 32) / 64 ∧ 0 ≤ n' ∧ n' ≤ 1073741824 ∧
      (n' = n ↔ -32 ≤ u32 e - n ∧ u32 e - n ≤ 31) ∧ (n ≤ u32 e → n ≤ n' ∧ n' ≤ u32 e)

/-- R156: the push writes the top byte of the 16-bit magnitude into the slot the index names, leaves
the other slots alone, and the index goes around the four slots. -/
def Obligations.HistoryPushReplacesTheOldestSlot : Prop :=
  ∀ (f : FilterState) (c m : Int) (k : Nat), -16383 ≤ c → c ≤ 16383 → 0 ≤ m → m ≤ 32767 → k < 4 →
    ((topByte m).toNat : Int) = m / 256 ∧
    byteLane (track params f c).hist k =
      (if k = f.hidx.toNat then (topByte |c|).toNat else byteLane f.hist k) ∧
    (track params f c).hidx.toNat = (f.hidx.toNat + 1) % 4

/-- R157 to R159 at the default coefficients, for any history: the boxcar sums are the sum of the four
slots and of the eight nibbles, the envelope is their sum over 8 rounded half up, and the sample is
silent exactly when they add up to at most 3. -/
def Obligations.SilentExactlyWhenSumsAtMostThree : Prop :=
  ∀ hist : Word,
    let s4 := ((List.range 4).map fun k => byteLane hist k).sum
    let s8 := ((List.range 8).map fun k => nibbleLane hist k).sum
    boxcar4 params hist = s4 ∧ boxcar8 params hist = s8 ∧
      envelope params hist = ((s4 + s8 + 4) / 8 : Nat) ∧ (envelope params hist = 0 ↔ s4 + s8 ≤ 3)

/-- R160: a silent sample outputs 0 and resets PREV, D1, D2, W1 and W2; NOISE, HIST and HIDX keep what
steps 3 and 4 gave them. -/
def Obligations.SilentSampleResetsTheHistory : Prop :=
  ∀ (f : FilterState) (x : Int),
    let f1 := track params f (clipSample params x)
    envelope params f1.hist = 0 →
      (sampleStep params f x).2 = 0 ∧
      (sampleStep params f x).1 = { FilterState.zero with noise := f1.noise, hist := f1.hist, hidx := f1.hidx }

/-- R161 and R166: the high-pass value and the DC sum are exact for every pair of 16-bit samples, and at
the default ceiling the mixed sample is the clipped sample plus the floor of minus half the previous
one. -/
def Obligations.HighPassDcSumAndMixAreExact : Prop :=
  (∀ c prev : Int, -32768 ≤ c → c ≤ 32767 → -32768 ≤ prev → prev ≤ 32767 →
    highPass params c prev = c - prev ∧ dcSum params c prev = c + prev) ∧
  ∀ c prev : Int, -16383 ≤ c → c ≤ 16383 → -16383 ≤ prev → prev ≤ 16383 →
    mix params (highPass params c prev) (dcSum params c prev) = c + (-prev) / 2

/-- R162 to R165 and R171: a sample that is not silent sets both coefficients to W1 plus the shifted low
32 bits of error times D1, where the error is the high-pass value minus the prediction from the
narrowed lanes; D2 takes D1, D1 takes the high-pass value and PREV the clipped sample. All of it wraps
at 32 bits. -/
def Obligations.LoudSampleAdaptsTheCoefficients : Prop :=
  ∀ (f : FilterState) (x : Int), -32768 ≤ x → x ≤ 32767 →
    let c := clipSample params x
    let f1 := track params f c
    let f2 := (sampleStep params f x).1
    envelope params f1.hist ≠ 0 →
      let low := fun w : Word => (w.setWidth 16).signExtend 32
      let hp := wrap32 (c - sext16 f.prev)
      let pred := low f.d1 * low f.w1 + low f.d2 * low f.w2
      let w := f.w1 + puShiftn ((hp - pred) * f.d1) 12
      f2.w1 = w ∧ f2.w2 = w ∧ f2.d2 = f.d1 ∧ f2.d1 = hp ∧ f2.prev = wrap16 c ∧
        f2.noise = f1.noise ∧ f2.hist = f1.hist ∧ f2.hidx = f1.hidx

/-- R168 and R169: the gain level by the energy against 1, 2 and 4 times the noise estimate, the scaled
thresholds clamped to 2^31 - 1, every comparison strict; the cap changes near-unity to -4 dB alone. -/
def Obligations.GainLevelFollowsTheThresholds : Prop :=
  ∀ (noise e : Word) (env : Int),
    let n := s32 noise
    let g := gainLevel params noise e
    g = (if u32 e > min (4 * n) (2 ^ 31 - 1) then 32767
      else if u32 e > min (2 * n) (2 ^ 31 - 1) then 20675
      else if u32 e > n then 8231 else 0) ∧
    capGain params env g = (if env > 32 ∧ g = 32767 then 20675 else g)

/-- R170: a muted sample outputs 0; any other outputs the mixed sample times the gain over 2^15 rounded
half up, which the final clip never changes, so that -32768 is never output. -/
def Obligations.OutputIsTheRoundedScaledMix : Prop :=
  ∀ mixed g : Int, -32768 ≤ mixed → mixed ≤ 32767 → 0 ≤ g → g ≤ 32767 →
    applyGain params mixed g = (mixed * g + 16384) / 32768 ∧
      -32767 ≤ applyGain params mixed g ∧ applyGain params mixed g ≤ 32767

/-- R153 to R171 as one closed formula on plain integers: from every Filter State that meets its
invariant, for every sample, the output of `SampleStep`. No wrap, narrowing or saturation of the
pipeline acts but those written here. -/
def Obligations.SampleOutputHasAClosedForm : Prop :=
  ∀ (f : FilterState) (x : Int), f.Inv → -32768 ≤ x → x ≤ 32767 →
    let c := max (-16383) (min 16383 x)
    let e := c * c
    let n := s32 f.noise + (e - s32 f.noise + 32) / 64
    let slot : Nat → Nat := fun k => if k = f.hidx.toNat then c.natAbs / 256 else byteLane f.hist k
    let s4 := ((List.range 4).map slot).sum
    let s8 := ((List.range 4).map fun k => slot k / 16 + slot k % 16).sum
    let env := (s4 + s8 + 4) / 8
    let g : Int :=
      if e > 4 * n then (if env > 32 then 20675 else 32767)
      else if e > 2 * n then 20675 else if e > n then 8231 else 0
    s32 (sampleStep params f x).1.noise = n ∧
    (sampleStep params f x).2 =
      if env = 0 then 0 else ((c + (-sext16 f.prev) / 2) * g + 16384) / 32768

/-- R167: two Filter States that differ in D1, D2, W1 and W2 alone give the same output and the same
NOISE, HIST, HIDX and PREV, on every sample. -/
def Obligations.LmsStateNeverReachesTheOutput : Prop :=
  ∀ (f : FilterState) (d1 d2 w1 w2 : Word) (x : Int),
    let g : FilterState := { f with d1 := d1, d2 := d2, w1 := w1, w2 := w2 }
    (sampleStep params g x).2 = (sampleStep params f x).2 ∧
    (sampleStep params g x).1.noise = (sampleStep params f x).1.noise ∧
    (sampleStep params g x).1.hist = (sampleStep params f x).1.hist ∧
    (sampleStep params g x).1.hidx = (sampleStep params f x).1.hidx ∧
    (sampleStep params g x).1.prev = (sampleStep params f x).1.prev

/-- R176: from stream initialisation, k zero samples give k zero outputs and leave the Filter State
zero, but for HIDX = k mod 4. -/
def Obligations.SilenceIsIdempotent : Prop :=
  ∀ k : Nat,
    streamOutputs FilterState.zero (List.replicate k 0) = List.replicate k 0 ∧
    streamFilter FilterState.zero (List.replicate k 0) = { FilterState.zero with hidx := BitVec.ofNat 2 (k % 4) }

/-- R177 with R155, R166, R168 and R170: on a constant stream of magnitude 256 to 32767, every output from
sample 44 on is the mixed sample scaled by the -12 dB gain, the same one for ever. The mixed sample is
R166's, c + (-c)/2 with `/` the floor; R177's own words for the value, `floor(c/2)` in magnitude, give 2057
where R166 and R170 (and table V9) give 2058 for a sample of -16383 or below, and are not what is stated
here. -/
def Obligations.ConstantStreamSettlesAtMinus12dB : Prop :=
  ∀ (x : Int) (k : Nat), 256 ≤ |x| → |x| ≤ 32767 → 44 ≤ k →
    let c := max (-16383) (min 16383 x)
    (streamOutputs FilterState.zero (List.replicate (k + 1) x))[k]? =
      some (((c + (-c) / 2) * 8231 + 16384) / 32768)

/-! ### Commands (41_engine.md) -/

/-- R150: NOP changes no state; the accepted command leaves the port. -/
def Obligations.NopChangesNothing : Prop :=
  ∀ (s s' : State) (p : PortInputs), Accepts s s' p → p.cmd = 0 →
    step s = .next { s' with port := none }

/-- R151: INIT zeroes the Filter State and writes no control register. -/
def Obligations.InitZeroesTheFilterState : Prop :=
  ∀ (s s' : State) (p : PortInputs), Accepts s s' p → p.cmd = 1 →
    ∃ t, step s = .next t ∧ t.filter.noise = 0 ∧ t.filter.hist = 0 ∧ t.filter.hidx = 0 ∧
      t.filter.prev = 0 ∧ t.filter.d1 = 0 ∧ t.filter.d2 = 0 ∧ t.filter.w1 = 0 ∧ t.filter.w2 = 0 ∧
      t.ctrl = s.ctrl ∧ SameHost s t ∧ SameBytes s t ∧ t.port = none ∧ t.faulted = none ∧
      t.inputs = s'.inputs

/-- R152: STEP runs SAMPLE_IN, read signed, through `SampleStep` on the Filter State that is present,
puts the output in SAMPLE_OUT and writes no other control register, no memory and nothing of the
host's. -/
def Obligations.StepCommandRunsOneSample : Prop :=
  ∀ (s s' : State) (p : PortInputs), Accepts s s' p → p.cmd = 2 →
    ∃ t, step s = .next t ∧ t.filter = (sampleStep params s.filter (sext16 p.sampleIn)).1 ∧
      sext16 t.ctrl.sampleOut = (sampleStep params s.filter (sext16 p.sampleIn)).2 ∧
      t.ctrl = { s.ctrl with sampleOut := t.ctrl.sampleOut } ∧
      SameHost s t ∧ SameBytes s t ∧ t.port = none ∧ t.faulted = none ∧ t.inputs = s'.inputs

/-- R207, R233 and R234, with log entry 5 (a DESIGN CHOICE: the launch goes to a next state marked FAULTED,
and the step after it answers the fault): a PROCESS whose buffer passes the end of the address space, whatever its header,
marks the state FAULTED with AddressWrap; one on a valid container whose declared payload passes the
buffer marks it with BufferOverrun. No byte is written, and no later step has meaning. -/
def Obligations.ProcessFaultsWithoutWriting : Prop :=
  ∀ (s s' : State) (p : PortInputs), Accepts s s' p → p.cmd = 3 →
    (p.bufBase.toNat + p.bufLen.toNat > 4294967296 →
      ∃ t, step s = .next t ∧ t.faulted = some .addressWrap ∧ faultedBit t = true ∧ SameBytes s t ∧
        t.filter = s.filter ∧ t.ctrl = s.ctrl ∧ SameHost s t ∧ step t = .fault .addressWrap) ∧
    ∀ n, p.bufBase.toNat + p.bufLen.toNat ≤ 4294967296 →
      cgValidate params s.mem p.bufBase.toNat p.bufLen.toNat = some n →
      44 + 2 * n > p.bufLen.toNat →
      ∃ t, step s = .next t ∧ t.faulted = some .bufferOverrun ∧ faultedBit t = true ∧ SameBytes s t ∧
        t.filter = s.filter ∧ SameHost s t ∧ step t = .fault .bufferOverrun

/-- R208 (and R204): a rejected container leaves every byte and the Filter State untouched, sets
ENG_STATUS to REJECTED and SAMPLE_COUNT to 0, and raises nothing; BUSY is 0 again at once. -/
def Obligations.RejectionIsSilent : Prop :=
  ∀ (s s' : State) (p : PortInputs), Accepts s s' p → p.cmd = 3 →
    p.bufBase.toNat + p.bufLen.toNat ≤ 4294967296 →
    cgValidate params s.mem p.bufBase.toNat p.bufLen.toNat = none →
    ∃ t, step s = .next t ∧ t.ctrl.engStatus = .rejected ∧ t.ctrl.sampleCount = 0 ∧
      t.ctrl.sidx = 0 ∧ t.ctrl.busy = false ∧ t.ctrl.sampleOut = s.ctrl.sampleOut ∧
      t.filter = s.filter ∧ SameBytes s t ∧ SameHost s t ∧ t.faulted = none ∧ t.port = none

/-- R172, the start step of an accepted container: BUSY is 1, ENG_STATUS IDLE, SAMPLE_COUNT the sample
count, SIDX 0, and a new stream starts (R209). No byte is written yet. That the buffer's place is latched
in `bufBase` and `bufLen` is log entry 13. -/
def Obligations.AcceptanceStartsANewStream : Prop :=
  ∀ (s s' : State) (p : PortInputs) (n : Nat), Accepts s s' p → p.cmd = 3 →
    p.bufBase.toNat + p.bufLen.toNat ≤ 4294967296 →
    cgValidate params s.mem p.bufBase.toNat p.bufLen.toNat = some n → 44 + 2 * n ≤ p.bufLen.toNat →
    ∃ t, step s = .next t ∧ t.ctrl.busy = true ∧ t.ctrl.engStatus = .idle ∧
      t.ctrl.sampleCount.toNat = n ∧ t.ctrl.sidx = 0 ∧ t.ctrl.bufBase = p.bufBase ∧
      t.ctrl.bufLen = p.bufLen ∧ t.ctrl.sampleOut = s.ctrl.sampleOut ∧ t.filter = FilterState.zero ∧
      SameBytes s t ∧ SameHost s t ∧ t.faulted = none ∧ t.port = none

/-- R205 with R200 to R206: the gate accepts exactly a buffer of 44 bytes or more whose sixteen tag
bytes and three little-endian scalars are as required, whatever its other fields; the sample count is
half the payload length, rounded down. -/
def Obligations.GateAcceptsExactlyValidHeaders : Prop :=
  ∀ (m : Memory) (base len n : Nat),
    let at_ : Nat → Nat := fun o => (readByte m (base + o)).toNat
    cgValidate params m base len = some n ↔
      44 ≤ len ∧
      at_ 0 = 0x52 ∧ at_ 1 = 0x49 ∧ at_ 2 = 0x46 ∧ at_ 3 = 0x46 ∧
      at_ 8 = 0x57 ∧ at_ 9 = 0x41 ∧ at_ 10 = 0x56 ∧ at_ 11 = 0x45 ∧
      at_ 12 = 0x66 ∧ at_ 13 = 0x6D ∧ at_ 14 = 0x74 ∧ at_ 15 = 0x20 ∧
      at_ 36 = 0x64 ∧ at_ 37 = 0x61 ∧ at_ 38 = 0x74 ∧ at_ 39 = 0x61 ∧
      at_ 20 = 1 ∧ at_ 21 = 0 ∧ at_ 34 = 16 ∧ at_ 35 = 0 ∧ at_ 22 = 1 ∧ at_ 23 = 0 ∧
      n = (at_ 40 + 256 * at_ 41 + 65536 * at_ 42 + 16777216 * at_ 43) / 2

/-- R172, one sample of PROCESS: the sample SIDX names is run, its output overwrites its two bytes at
BUF_BASE + 44 + 2 SIDX and goes to SAMPLE_OUT, SIDX advances by one; every other byte, the other
control registers and everything of the host's stay. -/
def Obligations.ProcessSampleOverwritesItsTwoBytes : Prop :=
  ∀ s s' : State, Invariant s → EngineMoves s s' → s.ctrl.busy = true →
    s.ctrl.sidx.toNat < s.ctrl.sampleCount.toNat →
    let a := s.ctrl.bufBase.toNat + 44 + 2 * s.ctrl.sidx.toNat
    let r := sampleStep params s.filter (sext16 (BitVec.ofNat 16 (memRead s.mem a 2)))
    ∃ t, step s = .next t ∧ sext16 (BitVec.ofNat 16 (memRead t.mem a 2)) = r.2 ∧
      sext16 t.ctrl.sampleOut = r.2 ∧ t.filter = r.1 ∧
      t.ctrl.sidx.toNat = s.ctrl.sidx.toNat + 1 ∧
      t.ctrl = { s.ctrl with sampleOut := t.ctrl.sampleOut, sidx := t.ctrl.sidx } ∧
      (∀ b, ¬(a ≤ b ∧ b < a + 2) → readByte t.mem b = readByte s.mem b) ∧
      SameHost s t ∧ t.port = s.port ∧ t.faulted = none ∧ t.inputs = s'.inputs

/-- R172, the end step: with every sample done, ENG_STATUS is DONE and BUSY 0; the counts, SAMPLE_OUT,
the Filter State and memory stay. That the latched buffer then reads 0 is log entry 13 (DEDUCED from R35,
with the model's own idle value). -/
def Obligations.ProcessEndsDone : Prop :=
  ∀ s s' : State, EngineMoves s s' → s.ctrl.busy = true →
    s.ctrl.sampleCount.toNat ≤ s.ctrl.sidx.toNat →
    ∃ t, step s = .next t ∧ t.ctrl.engStatus = .done ∧ t.ctrl.busy = false ∧
      t.ctrl.sampleCount = s.ctrl.sampleCount ∧ t.ctrl.sidx = s.ctrl.sidx ∧
      t.ctrl.sampleOut = s.ctrl.sampleOut ∧ t.ctrl.bufBase = 0 ∧ t.ctrl.bufLen = 0 ∧
      t.filter = s.filter ∧ SameBytes s t ∧ SameHost s t ∧ t.port = s.port ∧ t.faulted = none ∧
      t.inputs = s'.inputs

/-- R175: a PROCESS that accepts n samples takes exactly n + 2 steps of the NSE. In every run without a
reset, whatever else moves between them (host turns, stores, own code, commands), BUSY is 1 after each of
the first n + 1 of those steps, with SIDX counting the samples, and after the last it is DONE. With no
inputs no other agent moves and the n + 2 steps are the machine's next (the order of log entry 1, a DESIGN
CHOICE; the last two clauses alone rest on it). -/
def Obligations.ProcessTakesExactlyNPlusTwoSteps : Prop :=
  ∀ (s s' : State) (p : PortInputs) (n : Nat), Accepts s s' p → p.cmd = 3 →
    p.bufBase.toNat + p.bufLen.toNat ≤ 4294967296 →
    cgValidate params s.mem p.bufBase.toNat p.bufLen.toNat = some n → 44 + 2 * n ≤ p.bufLen.toNat →
    (∀ k t, EngineRun (k + 1) s t → k ≤ n → t.ctrl.busy = true ∧ t.ctrl.engStatus = .idle ∧
      t.ctrl.sidx.toNat = k ∧ t.ctrl.sampleCount.toNat = n ∧ t.faulted = none) ∧
    (∀ t, EngineRun (n + 2) s t → t.ctrl.busy = false ∧ t.ctrl.engStatus = .done ∧
      t.ctrl.sidx.toNat = n ∧ t.ctrl.sampleCount.toNat = n ∧ t.faulted = none) ∧
    (s.inputs = [] → ∀ k, k ≤ n → ∃ t : State, Host.Core.run core (k + 1) s = .next t ∧
      EngineRun (k + 1) s t ∧ t.ctrl.busy = true ∧ t.ctrl.sidx.toNat = k) ∧
    (s.inputs = [] → ∃ t : State, Host.Core.run core (n + 2) s = .next t ∧ EngineRun (n + 2) s t ∧
      t.ctrl.busy = false ∧ t.ctrl.engStatus = .done)

/-- R209, R61 and R173: PROCESS on an accepted container replaces its samples, in place and in order, by
the outputs of `SampleStep` folded over them from the zero Filter State. In every run without a reset,
whatever else moves between the NSE's steps, the first k samples are outputs after k of them and the rest
are as they were, every other byte of the buffer is as before, and the end step changes no byte. With no
inputs no other agent moves (the order of log entry 1, a DESIGN CHOICE; the last clause alone rests on it),
and then every byte of memory but the samples is as before. -/
def Obligations.ProcessFiltersThePayloadInPlace : Prop :=
  ∀ (s s' : State) (p : PortInputs) (n : Nat), s.mem.wf = true → Accepts s s' p →
    p.cmd = 3 → p.bufBase.toNat + p.bufLen.toNat ≤ 4294967296 →
    cgValidate params s.mem p.bufBase.toNat p.bufLen.toNat = some n → 44 + 2 * n ≤ p.bufLen.toNat →
    let xs := payload s.mem p.bufBase.toNat n
    (∀ k t, EngineRun (k + 1) s t → k ≤ n →
      payload t.mem p.bufBase.toNat n = (streamOutputs FilterState.zero xs).take k ++ xs.drop k ∧
      t.filter = streamFilter FilterState.zero (xs.take k) ∧
      ∀ a, p.bufBase.toNat ≤ a → a < p.bufBase.toNat + p.bufLen.toNat →
        ¬(p.bufBase.toNat + 44 ≤ a ∧ a < p.bufBase.toNat + 44 + 2 * n) →
        readByte t.mem a = readByte s.mem a) ∧
    (∀ t u, EngineRun (n + 1) s t → (∃ t', EngineMoves t t') → step t = .next u →
      payload u.mem p.bufBase.toNat n = streamOutputs FilterState.zero xs ∧
      u.filter = streamFilter FilterState.zero xs ∧ SameBytes t u) ∧
    (s.inputs = [] → ∃ t : State, Host.Core.run core (n + 2) s = .next t ∧
      payload t.mem p.bufBase.toNat n = streamOutputs FilterState.zero xs ∧
      t.filter = streamFilter FilterState.zero xs ∧
      ∀ a, ¬(p.bufBase.toNat + 44 ≤ a ∧ a < p.bufBase.toNat + 44 + 2 * n) →
        readByte t.mem a = readByte s.mem a)

/-- R57, as a law of every step of the NSE: while BUSY = 1 it writes no byte outside the samples of the
PROCESS in progress (the header, a trailing odd byte, what lies past the payload), and while BUSY = 0 it
writes no byte at all. A rejected container gets no write, and nothing is left in progress. -/
def Obligations.ProcessWritesOnlyItsSamples : Prop :=
  (∀ s s' t : State, Invariant s → EngineMoves s s' → step s = .next t →
    (s.ctrl.busy = true → ∀ a, ¬(s.ctrl.bufBase.toNat + 44 ≤ a ∧
        a < s.ctrl.bufBase.toNat + 44 + 2 * s.ctrl.sampleCount.toNat) →
      readByte t.mem a = readByte s.mem a) ∧
    (s.ctrl.busy = false → SameBytes s t)) ∧
  ∀ (s s' : State) (p : PortInputs), Accepts s s' p → p.cmd = 3 →
    p.bufBase.toNat + p.bufLen.toNat ≤ 4294967296 →
    cgValidate params s.mem p.bufBase.toNat p.bufLen.toNat = none →
    ∃ t, step s = .next t ∧ t.ctrl.busy = false ∧ SameBytes s t

/-! ### Host and engine side by side -/

/-- R150 and R266: presenting a command on a free port, with BUSY 0 or 1, puts it there and does nothing
else (a host whose code stands in the busy buffer has no such move, which
`HostKeepsOffTheBusyBuffer` states); while BUSY = 1 a presented command is held, neither lost nor executed, and the host that presented
it has no step: whatever the host would do next waits, and the NSE goes on. -/
def Obligations.HeldCommandWaitsAndStallsTheHost : Prop :=
  (∀ (s : State) (p : PortInputs) (rest : List Input),
    s.faulted = none → s.port = none → s.inputs = .present p :: rest →
    (s.ctrl.busy = true → s.trap = none → ∀ j, j < 4 → ¬(s.ctrl.bufBase.toNat ≤ s.pc.toNat + j ∧
      s.pc.toNat + j < s.ctrl.bufBase.toNat + s.ctrl.bufLen.toNat)) →
    step s = .next { s with inputs := rest, port := some p }) ∧
  ∀ (s : State) (p : PortInputs) (i : Input) (rest : List Input),
    s.faulted = none → s.ctrl.busy = true → s.port = some p → s.inputs = i :: rest →
    i ≠ .engine → i ≠ .reset →
    ∃ t, step s = .next t ∧ t.port = some p ∧ t.inputs = s.inputs ∧ SameHost s t ∧
      t = s.processNext

/-- R62, R65 and R264: while BUSY = 1 the host has no move on the buffer. Its store to it, its instruction
fetched from it or accessing it, and whatever its code at a pc in it would do (run, store anywhere, present
a command) wait, and the NSE moves instead (with an exception pending its handler runs, which is not at the
pc; what is at a buffer address counts as the buffer even where NSE_PORT_MAP places a register there, a
DESIGN CHOICE of log entry 4); and every
step but the NSE's leaves every byte of the buffer as it was. -/
def Obligations.HostKeepsOffTheBusyBuffer : Prop :=
  (∀ (s : State) (i : Input) (rest : List Input),
    s.faulted = none → s.ctrl.busy = true → s.inputs = i :: rest →
    let inBuffer : Nat → Prop := fun a =>
      s.ctrl.bufBase.toNat ≤ a ∧ a < s.ctrl.bufBase.toNat + s.ctrl.bufLen.toNat
    ((∃ a b, i = .store a b ∧ inBuffer a.toNat) ∨
      (i = .instr ∧ ∃ j, j < 4 ∧ inBuffer (s.pc.toNat + j)) ∨
      (i = .instr ∧ ∃ h a n j, decodeRv32i s.fetchWord = some h ∧ h.access s = some (a, n) ∧ j < n ∧
        inBuffer (a + j)) ∨
      (s.trap = none ∧ i ≠ .engine ∧ i ≠ .reset ∧
        ∃ j, j < 4 ∧ inBuffer (s.pc.toNat + j))) →
    step s = .next s.processNext ∧ SameHost s s.processNext ∧ s.processNext.inputs = s.inputs) ∧
  ∀ s t : State, Invariant s → s.ctrl.busy = true → step s = .next t → (¬∃ s', EngineMoves s s') →
    ∀ a, s.ctrl.bufBase.toNat ≤ a → a < s.ctrl.bufBase.toNat + s.ctrl.bufLen.toNat →
      readByte t.mem a = readByte s.mem a

/-- R62, R263 and R59: a store of the host that may run (no command of its is held, and while BUSY = 1
neither the byte nor the code at its pc is in the buffer) writes its byte and nothing else. Where
NSE_PORT_MAP places an NSE register, the store reaches that register and no memory: an input of the
command port is driven, CMD presents the command as it is then driven, every other register is read-only
(the effect on a port, and that CMD takes the two low bits of the byte, is the model's choice, log entry
21). -/
def Obligations.HostStoreWritesItsByteAlone : Prop :=
  ∀ (s : State) (a : Word) (b : Byte) (rest : List Input), s.mem.wf = true →
    s.faulted = none → s.inputs = .store a b :: rest → s.port = none →
    (s.ctrl.busy = true → ¬(s.ctrl.bufBase.toNat ≤ a.toNat ∧
      a.toNat < s.ctrl.bufBase.toNat + s.ctrl.bufLen.toNat)) →
    (s.ctrl.busy = true → s.trap = none → ∀ j, j < 4 → ¬(s.ctrl.bufBase.toNat ≤ s.pc.toNat + j ∧
      s.pc.toNat + j < s.ctrl.bufBase.toNat + s.ctrl.bufLen.toNat)) →
    ∃ t, step s = .next t ∧ t.regs = s.regs ∧ t.pc = s.pc ∧ t.trap = s.trap ∧ t.filter = s.filter ∧
      t.ctrl = s.ctrl ∧ t.portMap = s.portMap ∧ t.draws = s.draws ∧ t.faulted = none ∧
      t.inputs = rest ∧
      match s.portAt a.toNat with
      | none => t.port = none ∧ t.driven = s.driven ∧
          ∀ c, readByte t.mem c = if c = a.toNat then b else readByte s.mem c
      | some (r, k) => SameBytes s t ∧
          t.driven.cmd = (if r = .cmd ∧ k = 0 then b.setWidth 2 else s.driven.cmd) ∧
          (∀ j, j < 2 → t.driven.sampleIn.extractLsb' (8 * j) 8 =
            if r = .sampleIn ∧ k = j then b else s.driven.sampleIn.extractLsb' (8 * j) 8) ∧
          (∀ j, j < 4 → t.driven.bufBase.extractLsb' (8 * j) 8 =
            if r = .bufBase ∧ k = j then b else s.driven.bufBase.extractLsb' (8 * j) 8) ∧
          (∀ j, j < 4 → t.driven.bufLen.extractLsb' (8 * j) 8 =
            if r = .bufLen ∧ k = j then b else s.driven.bufLen.extractLsb' (8 * j) 8) ∧
          t.port = if r = .cmd ∧ k = 0 then some t.driven else none

/-- R235 and R236: what the host holds (registers, pc, a pending exception, what it
drives at the port and where the ports are placed, its coming inputs) never
changes what a step of the NSE does to memory, the Filter State, the control state, the port and
FAULTED, and the NSE's step changes nothing of the host's. -/
def Obligations.EngineStepIgnoresTheHost : Prop :=
  ∀ (s : State) (regs : Vector Word 31) (pc : Word) (trap : Option Word) (driven : PortInputs)
    (portMap : List Config.PortCell) (draws : Nat) (inputs : List Input),
    let s' : State := { s with
      regs := regs, pc := pc, trap := trap, driven := driven, portMap := portMap, draws := draws,
      inputs := inputs }
    s'.engineStep.mem = s.engineStep.mem ∧ s'.engineStep.filter = s.engineStep.filter ∧
    s'.engineStep.ctrl = s.engineStep.ctrl ∧ s'.engineStep.port = s.engineStep.port ∧
    s'.engineStep.faulted = s.engineStep.faulted ∧
    SameHost s s.engineStep ∧ s.engineStep.inputs = s.inputs

/-- R28: no instruction and no other act of the host writes the Filter State or the control state; only
the NSE's own steps and a reset do. -/
def Obligations.HostNeverWritesTheEnginesState : Prop :=
  ∀ s t : State, step s = .next t → (t.filter ≠ s.filter ∨ t.ctrl ≠ s.ctrl) →
    (∃ s', EngineMoves s s' ∧ t = s'.engineStep) ∨ ∃ rest, s.inputs = .reset :: rest

/-- R260, with log entries 13 and 20 (that the latched buffer is 0 again, and that memory and the host are
not the block's, are read from R35, R39 and R260 by inference): a hardware reset gives the block's registers their reset values and drops a held command; the
bytes PROCESS has written stay, and nothing of the host's changes. -/
def Obligations.HardwareResetClearsTheBlock : Prop :=
  ∀ (s : State) (rest : List Input), s.faulted = none → s.inputs = .reset :: rest →
    ∃ t, step s = .next t ∧ t.filter = State.reset.filter ∧ t.ctrl = State.reset.ctrl ∧
      t.port = none ∧ t.faulted = none ∧ SameBytes s t ∧ SameHost s t ∧ t.inputs = rest

/-- R39, R37 and R33: the reset values the spec gives, of every register of the block; and the observation
port, in every state, shows the registers as they are, ENG_STATUS by its code. -/
def Obligations.ResetValuesAreTheSpecs : Prop :=
  (∀ s : State,
    let o := observe s
    o.noise = s.filter.noise ∧ o.hist = s.filter.hist ∧ o.hidx = s.filter.hidx ∧
      o.prev = s.filter.prev ∧ o.d1 = s.filter.d1 ∧ o.d2 = s.filter.d2 ∧ o.w1 = s.filter.w1 ∧
      o.w2 = s.filter.w2 ∧ o.busy = s.ctrl.busy ∧ o.sampleCount = s.ctrl.sampleCount ∧
      o.sidx = s.ctrl.sidx ∧ o.sampleOut = s.ctrl.sampleOut ∧
      (o.engStatus = 0 ↔ s.ctrl.engStatus = .idle) ∧ (o.engStatus = 1 ↔ s.ctrl.engStatus = .done) ∧
      (o.engStatus = 2 ↔ s.ctrl.engStatus = .rejected) ∧ o.engStatus ≠ 3) ∧
  let o := observe State.reset
  o.noise = 0 ∧ o.hist = 0 ∧ o.hidx = 0 ∧ o.prev = 0 ∧ o.d1 = 0 ∧ o.d2 = 0 ∧ o.w1 = 0 ∧ o.w2 = 0 ∧
    o.busy = false ∧ o.engStatus = 0 ∧ o.sampleCount = 0 ∧ o.sidx = 0 ∧ o.sampleOut = 0 ∧
    faultedBit State.reset = false

/-- R13 and R33: a faulted state has no step but the fault, which is never cleared. -/
def Obligations.FaultedStateHasNoStep : Prop :=
  ∀ (s : State) (r : Fault) (k : Nat), s.faulted = some r →
    step s = .fault r ∧ Host.Core.run core (k + 1) s = .fault r

/-- R82: the expansions of the pseudo-instructions give the packed and unpacked words the rule states.
The host instructions they expand to are PRESUMED (log entry 10); `rtmp` must also not be x0, which
the rule does not say. -/
def Obligations.PseudoInstructionsPackAndUnpack : Prop :=
  (∀ (rd rs : RegIdx) (s : State), ∃ t, runRv32i (unpackLo rd rs) s = .next t ∧
    t.readReg rd = (if rd = 0 then 0 else wrap32 (lane0 (s.readReg rs)))) ∧
  (∀ (rd rs : RegIdx) (s : State), ∃ t, runRv32i (unpackHi rd rs) s = .next t ∧
    t.readReg rd = (if rd = 0 then 0 else wrap32 (lane1 (s.readReg rs)))) ∧
  ∀ (rd rlo rhi rtmp : RegIdx) (s : State), rtmp ≠ rd → rtmp ≠ rhi → rtmp ≠ 0 →
    ∃ t, runRv32i (packRegs rd rlo rhi rtmp) s = .next t ∧
      t.readReg rd = (if rd = 0 then 0
        else (s.readReg rhi).extractLsb' 0 16 ++ (s.readReg rlo).extractLsb' 0 16)

/-! ### The invariant (10_state.md R30 to R33) -/

/-- The state after reset meets the invariant. -/
def Obligations.ResetMeetsTheInvariant : Prop := Invariant State.reset

/-- Every step keeps the invariant: one coefficient (R30), the noise estimate in [0, 2^30] (R31), every
history slot at most 127 (R32), PREV within the ceiling, SIDX at most SAMPLE_COUNT (R33), a busy
buffer that fits (R54), memory in canonical form and the pc aligned. -/
def Obligations.EveryStepKeepsTheInvariant : Prop :=
  ∀ s t : State, Invariant s → step s = .next t → Invariant t
end

