-- ==== Sys2Proof/Laws/State.lean ====
section
/-!
SUPPORT. One lemma per field per named update of the state, so that no later proof unfolds a record
update.
-/
namespace Sys2Proof.Machine

/-! ### `State.setPc` -/

@[simp] theorem State.setPc_regs (s : State) (v : Word) : (s.setPc v).regs = s.regs := rfl
@[simp] theorem State.setPc_pc (s : State) (v : Word) : (s.setPc v).pc = v := rfl
@[simp] theorem State.setPc_trap (s : State) (v : Word) : (s.setPc v).trap = s.trap := rfl
@[simp] theorem State.setPc_mem (s : State) (v : Word) : (s.setPc v).mem = s.mem := rfl
@[simp] theorem State.setPc_filter (s : State) (v : Word) : (s.setPc v).filter = s.filter := rfl
@[simp] theorem State.setPc_ctrl (s : State) (v : Word) : (s.setPc v).ctrl = s.ctrl := rfl
@[simp] theorem State.setPc_port (s : State) (v : Word) : (s.setPc v).port = s.port := rfl
@[simp] theorem State.setPc_driven (s : State) (v : Word) : (s.setPc v).driven = s.driven := rfl
@[simp] theorem State.setPc_portMap (s : State) (v : Word) : (s.setPc v).portMap = s.portMap := rfl
@[simp] theorem State.setPc_draws (s : State) (v : Word) : (s.setPc v).draws = s.draws := rfl
@[simp] theorem State.setPc_faulted (s : State) (v : Word) : (s.setPc v).faulted = s.faulted := rfl
@[simp] theorem State.setPc_inputs (s : State) (v : Word) : (s.setPc v).inputs = s.inputs := rfl

/-! ### `State.advancePc` -/

@[simp] theorem State.advancePc_regs (s : State) : s.advancePc.regs = s.regs := rfl
@[simp] theorem State.advancePc_pc (s : State) : s.advancePc.pc = s.pc + 4 := rfl
@[simp] theorem State.advancePc_trap (s : State) : s.advancePc.trap = s.trap := rfl
@[simp] theorem State.advancePc_mem (s : State) : s.advancePc.mem = s.mem := rfl
@[simp] theorem State.advancePc_filter (s : State) : s.advancePc.filter = s.filter := rfl
@[simp] theorem State.advancePc_ctrl (s : State) : s.advancePc.ctrl = s.ctrl := rfl
@[simp] theorem State.advancePc_port (s : State) : s.advancePc.port = s.port := rfl
@[simp] theorem State.advancePc_driven (s : State) : s.advancePc.driven = s.driven := rfl
@[simp] theorem State.advancePc_portMap (s : State) : s.advancePc.portMap = s.portMap := rfl
@[simp] theorem State.advancePc_draws (s : State) : s.advancePc.draws = s.draws := rfl
@[simp] theorem State.advancePc_faulted (s : State) : s.advancePc.faulted = s.faulted := rfl
@[simp] theorem State.advancePc_inputs (s : State) : s.advancePc.inputs = s.inputs := rfl

/-! ### `State.raiseIllegal` -/

@[simp] theorem State.raiseIllegal_regs (s : State) (v : Word) :
    (s.raiseIllegal v).regs = s.regs :=
  rfl
@[simp] theorem State.raiseIllegal_pc (s : State) (v : Word) : (s.raiseIllegal v).pc = s.pc := rfl
@[simp] theorem State.raiseIllegal_trap (s : State) (v : Word) :
    (s.raiseIllegal v).trap = some v :=
  rfl
@[simp] theorem State.raiseIllegal_mem (s : State) (v : Word) :
    (s.raiseIllegal v).mem = s.mem :=
  rfl
@[simp] theorem State.raiseIllegal_filter (s : State) (v : Word) :
    (s.raiseIllegal v).filter = s.filter :=
  rfl
@[simp] theorem State.raiseIllegal_ctrl (s : State) (v : Word) :
    (s.raiseIllegal v).ctrl = s.ctrl :=
  rfl
@[simp] theorem State.raiseIllegal_port (s : State) (v : Word) :
    (s.raiseIllegal v).port = s.port :=
  rfl
@[simp] theorem State.raiseIllegal_driven (s : State) (v : Word) :
    (s.raiseIllegal v).driven = s.driven :=
  rfl
@[simp] theorem State.raiseIllegal_portMap (s : State) (v : Word) :
    (s.raiseIllegal v).portMap = s.portMap :=
  rfl
@[simp] theorem State.raiseIllegal_draws (s : State) (v : Word) :
    (s.raiseIllegal v).draws = s.draws :=
  rfl
@[simp] theorem State.raiseIllegal_faulted (s : State) (v : Word) :
    (s.raiseIllegal v).faulted = s.faulted :=
  rfl
@[simp] theorem State.raiseIllegal_inputs (s : State) (v : Word) :
    (s.raiseIllegal v).inputs = s.inputs :=
  rfl

/-! ### `State.leaveTrap` -/

@[simp] theorem State.leaveTrap_regs (s : State) (v : Word) : (s.leaveTrap v).regs = s.regs := rfl
@[simp] theorem State.leaveTrap_pc (s : State) (v : Word) :
    (s.leaveTrap v).pc = v &&& 0xFFFFFFFC#32 :=
  rfl
@[simp] theorem State.leaveTrap_trap (s : State) (v : Word) : (s.leaveTrap v).trap = none := rfl
@[simp] theorem State.leaveTrap_mem (s : State) (v : Word) : (s.leaveTrap v).mem = s.mem := rfl
@[simp] theorem State.leaveTrap_filter (s : State) (v : Word) :
    (s.leaveTrap v).filter = s.filter :=
  rfl
@[simp] theorem State.leaveTrap_ctrl (s : State) (v : Word) : (s.leaveTrap v).ctrl = s.ctrl := rfl
@[simp] theorem State.leaveTrap_port (s : State) (v : Word) : (s.leaveTrap v).port = s.port := rfl
@[simp] theorem State.leaveTrap_driven (s : State) (v : Word) :
    (s.leaveTrap v).driven = s.driven :=
  rfl
@[simp] theorem State.leaveTrap_portMap (s : State) (v : Word) :
    (s.leaveTrap v).portMap = s.portMap :=
  rfl
@[simp] theorem State.leaveTrap_draws (s : State) (v : Word) :
    (s.leaveTrap v).draws = s.draws :=
  rfl
@[simp] theorem State.leaveTrap_faulted (s : State) (v : Word) :
    (s.leaveTrap v).faulted = s.faulted :=
  rfl
@[simp] theorem State.leaveTrap_inputs (s : State) (v : Word) :
    (s.leaveTrap v).inputs = s.inputs :=
  rfl

/-! ### `State.markFault` -/

@[simp] theorem State.markFault_regs (s : State) (v : Fault) : (s.markFault v).regs = s.regs := rfl
@[simp] theorem State.markFault_pc (s : State) (v : Fault) : (s.markFault v).pc = s.pc := rfl
@[simp] theorem State.markFault_trap (s : State) (v : Fault) : (s.markFault v).trap = s.trap := rfl
@[simp] theorem State.markFault_mem (s : State) (v : Fault) : (s.markFault v).mem = s.mem := rfl
@[simp] theorem State.markFault_filter (s : State) (v : Fault) :
    (s.markFault v).filter = s.filter :=
  rfl
@[simp] theorem State.markFault_ctrl (s : State) (v : Fault) : (s.markFault v).ctrl = s.ctrl := rfl
@[simp] theorem State.markFault_port (s : State) (v : Fault) : (s.markFault v).port = s.port := rfl
@[simp] theorem State.markFault_driven (s : State) (v : Fault) :
    (s.markFault v).driven = s.driven :=
  rfl
@[simp] theorem State.markFault_portMap (s : State) (v : Fault) :
    (s.markFault v).portMap = s.portMap :=
  rfl
@[simp] theorem State.markFault_draws (s : State) (v : Fault) :
    (s.markFault v).draws = s.draws :=
  rfl
@[simp] theorem State.markFault_faulted (s : State) (v : Fault) :
    (s.markFault v).faulted = some v :=
  rfl
@[simp] theorem State.markFault_inputs (s : State) (v : Fault) :
    (s.markFault v).inputs = s.inputs :=
  rfl

/-! ### `State.initStream` -/

@[simp] theorem State.initStream_regs (s : State) : s.initStream.regs = s.regs := rfl
@[simp] theorem State.initStream_pc (s : State) : s.initStream.pc = s.pc := rfl
@[simp] theorem State.initStream_trap (s : State) : s.initStream.trap = s.trap := rfl
@[simp] theorem State.initStream_mem (s : State) : s.initStream.mem = s.mem := rfl
@[simp] theorem State.initStream_filter (s : State) : s.initStream.filter = FilterState.zero := rfl
@[simp] theorem State.initStream_ctrl (s : State) : s.initStream.ctrl = s.ctrl := rfl
@[simp] theorem State.initStream_port (s : State) : s.initStream.port = s.port := rfl
@[simp] theorem State.initStream_driven (s : State) : s.initStream.driven = s.driven := rfl
@[simp] theorem State.initStream_portMap (s : State) : s.initStream.portMap = s.portMap := rfl
@[simp] theorem State.initStream_draws (s : State) : s.initStream.draws = s.draws := rfl
@[simp] theorem State.initStream_faulted (s : State) : s.initStream.faulted = s.faulted := rfl
@[simp] theorem State.initStream_inputs (s : State) : s.initStream.inputs = s.inputs := rfl

/-! ### `State.runSample` -/

@[simp] theorem State.runSample_regs (s : State) (v : Int) : (s.runSample v).regs = s.regs := rfl
@[simp] theorem State.runSample_pc (s : State) (v : Int) : (s.runSample v).pc = s.pc := rfl
@[simp] theorem State.runSample_trap (s : State) (v : Int) : (s.runSample v).trap = s.trap := rfl
@[simp] theorem State.runSample_mem (s : State) (v : Int) : (s.runSample v).mem = s.mem := rfl
@[simp] theorem State.runSample_filter (s : State) (v : Int) :
    (s.runSample v).filter = (sampleStep params s.filter v).1 :=
  rfl
@[simp] theorem State.runSample_ctrl (s : State) (v : Int) :
    (s.runSample v).ctrl = { s.ctrl with sampleOut := wrap16 (sampleStep params s.filter v).2 } :=
  rfl
@[simp] theorem State.runSample_port (s : State) (v : Int) : (s.runSample v).port = s.port := rfl
@[simp] theorem State.runSample_driven (s : State) (v : Int) :
    (s.runSample v).driven = s.driven :=
  rfl
@[simp] theorem State.runSample_portMap (s : State) (v : Int) :
    (s.runSample v).portMap = s.portMap :=
  rfl
@[simp] theorem State.runSample_draws (s : State) (v : Int) : (s.runSample v).draws = s.draws := rfl
@[simp] theorem State.runSample_faulted (s : State) (v : Int) :
    (s.runSample v).faulted = s.faulted :=
  rfl
@[simp] theorem State.runSample_inputs (s : State) (v : Int) :
    (s.runSample v).inputs = s.inputs :=
  rfl

/-! ### `State.launch` -/

@[simp] theorem State.launch_regs (s : State) (a b : Word) : (s.launch a b).regs = s.regs := rfl
@[simp] theorem State.launch_pc (s : State) (a b : Word) : (s.launch a b).pc = s.pc := rfl
@[simp] theorem State.launch_trap (s : State) (a b : Word) : (s.launch a b).trap = s.trap := rfl
@[simp] theorem State.launch_mem (s : State) (a b : Word) : (s.launch a b).mem = s.mem := rfl
@[simp] theorem State.launch_filter (s : State) (a b : Word) :
    (s.launch a b).filter = s.filter :=
  rfl
@[simp] theorem State.launch_ctrl (s : State) (a b : Word) :
    (s.launch a b).ctrl = { s.ctrl with busy := true, engStatus := .idle, bufBase := a, bufLen := b } :=
  rfl
@[simp] theorem State.launch_port (s : State) (a b : Word) : (s.launch a b).port = s.port := rfl
@[simp] theorem State.launch_driven (s : State) (a b : Word) :
    (s.launch a b).driven = s.driven :=
  rfl
@[simp] theorem State.launch_portMap (s : State) (a b : Word) :
    (s.launch a b).portMap = s.portMap :=
  rfl
@[simp] theorem State.launch_draws (s : State) (a b : Word) : (s.launch a b).draws = s.draws := rfl
@[simp] theorem State.launch_faulted (s : State) (a b : Word) :
    (s.launch a b).faulted = s.faulted :=
  rfl
@[simp] theorem State.launch_inputs (s : State) (a b : Word) :
    (s.launch a b).inputs = s.inputs :=
  rfl

/-! ### `State.reject` -/

@[simp] theorem State.reject_regs (s : State) : s.reject.regs = s.regs := rfl
@[simp] theorem State.reject_pc (s : State) : s.reject.pc = s.pc := rfl
@[simp] theorem State.reject_trap (s : State) : s.reject.trap = s.trap := rfl
@[simp] theorem State.reject_mem (s : State) : s.reject.mem = s.mem := rfl
@[simp] theorem State.reject_filter (s : State) : s.reject.filter = s.filter := rfl
@[simp] theorem State.reject_ctrl (s : State) :
    s.reject.ctrl = { s.ctrl with sampleCount := 0, sidx := 0, engStatus := .rejected, busy := false, bufBase := 0, bufLen := 0 } :=
  rfl
@[simp] theorem State.reject_port (s : State) : s.reject.port = s.port := rfl
@[simp] theorem State.reject_driven (s : State) : s.reject.driven = s.driven := rfl
@[simp] theorem State.reject_portMap (s : State) : s.reject.portMap = s.portMap := rfl
@[simp] theorem State.reject_draws (s : State) : s.reject.draws = s.draws := rfl
@[simp] theorem State.reject_faulted (s : State) : s.reject.faulted = s.faulted := rfl
@[simp] theorem State.reject_inputs (s : State) : s.reject.inputs = s.inputs := rfl

/-! ### `State.acceptContainer` -/

@[simp] theorem State.acceptContainer_regs (s : State) (n : Nat) :
    (s.acceptContainer n).regs = s.regs :=
  rfl
@[simp] theorem State.acceptContainer_pc (s : State) (n : Nat) :
    (s.acceptContainer n).pc = s.pc :=
  rfl
@[simp] theorem State.acceptContainer_trap (s : State) (n : Nat) :
    (s.acceptContainer n).trap = s.trap :=
  rfl
@[simp] theorem State.acceptContainer_mem (s : State) (n : Nat) :
    (s.acceptContainer n).mem = s.mem :=
  rfl
@[simp] theorem State.acceptContainer_filter (s : State) (n : Nat) :
    (s.acceptContainer n).filter = FilterState.zero :=
  rfl
@[simp] theorem State.acceptContainer_ctrl (s : State) (n : Nat) :
    (s.acceptContainer n).ctrl = { s.ctrl with sampleCount := BitVec.ofNat 32 n, sidx := 0 } :=
  rfl
@[simp] theorem State.acceptContainer_port (s : State) (n : Nat) :
    (s.acceptContainer n).port = s.port :=
  rfl
@[simp] theorem State.acceptContainer_driven (s : State) (n : Nat) :
    (s.acceptContainer n).driven = s.driven :=
  rfl
@[simp] theorem State.acceptContainer_portMap (s : State) (n : Nat) :
    (s.acceptContainer n).portMap = s.portMap :=
  rfl
@[simp] theorem State.acceptContainer_draws (s : State) (n : Nat) :
    (s.acceptContainer n).draws = s.draws :=
  rfl
@[simp] theorem State.acceptContainer_faulted (s : State) (n : Nat) :
    (s.acceptContainer n).faulted = s.faulted :=
  rfl
@[simp] theorem State.acceptContainer_inputs (s : State) (n : Nat) :
    (s.acceptContainer n).inputs = s.inputs :=
  rfl

/-! ### `State.processEnd` -/

@[simp] theorem State.processEnd_regs (s : State) : s.processEnd.regs = s.regs := rfl
@[simp] theorem State.processEnd_pc (s : State) : s.processEnd.pc = s.pc := rfl
@[simp] theorem State.processEnd_trap (s : State) : s.processEnd.trap = s.trap := rfl
@[simp] theorem State.processEnd_mem (s : State) : s.processEnd.mem = s.mem := rfl
@[simp] theorem State.processEnd_filter (s : State) : s.processEnd.filter = s.filter := rfl
@[simp] theorem State.processEnd_ctrl (s : State) :
    s.processEnd.ctrl = { s.ctrl with engStatus := .done, busy := false, bufBase := 0, bufLen := 0 } :=
  rfl
@[simp] theorem State.processEnd_port (s : State) : s.processEnd.port = s.port := rfl
@[simp] theorem State.processEnd_driven (s : State) : s.processEnd.driven = s.driven := rfl
@[simp] theorem State.processEnd_portMap (s : State) : s.processEnd.portMap = s.portMap := rfl
@[simp] theorem State.processEnd_draws (s : State) : s.processEnd.draws = s.draws := rfl
@[simp] theorem State.processEnd_faulted (s : State) : s.processEnd.faulted = s.faulted := rfl
@[simp] theorem State.processEnd_inputs (s : State) : s.processEnd.inputs = s.inputs := rfl

/-! ### `State.present` -/

@[simp] theorem State.present_regs (s : State) (v : PortInputs) : (s.present v).regs = s.regs := rfl
@[simp] theorem State.present_pc (s : State) (v : PortInputs) : (s.present v).pc = s.pc := rfl
@[simp] theorem State.present_trap (s : State) (v : PortInputs) : (s.present v).trap = s.trap := rfl
@[simp] theorem State.present_mem (s : State) (v : PortInputs) : (s.present v).mem = s.mem := rfl
@[simp] theorem State.present_filter (s : State) (v : PortInputs) :
    (s.present v).filter = s.filter :=
  rfl
@[simp] theorem State.present_ctrl (s : State) (v : PortInputs) : (s.present v).ctrl = s.ctrl := rfl
@[simp] theorem State.present_port (s : State) (v : PortInputs) : (s.present v).port = some v := rfl
@[simp] theorem State.present_driven (s : State) (v : PortInputs) :
    (s.present v).driven = s.driven :=
  rfl
@[simp] theorem State.present_portMap (s : State) (v : PortInputs) :
    (s.present v).portMap = s.portMap :=
  rfl
@[simp] theorem State.present_draws (s : State) (v : PortInputs) :
    (s.present v).draws = s.draws :=
  rfl
@[simp] theorem State.present_faulted (s : State) (v : PortInputs) :
    (s.present v).faulted = s.faulted :=
  rfl
@[simp] theorem State.present_inputs (s : State) (v : PortInputs) :
    (s.present v).inputs = s.inputs :=
  rfl

/-! ### `State.blockReset` -/

@[simp] theorem State.blockReset_regs (s : State) : s.blockReset.regs = s.regs := rfl
@[simp] theorem State.blockReset_pc (s : State) : s.blockReset.pc = s.pc := rfl
@[simp] theorem State.blockReset_trap (s : State) : s.blockReset.trap = s.trap := rfl
@[simp] theorem State.blockReset_mem (s : State) : s.blockReset.mem = s.mem := rfl
@[simp] theorem State.blockReset_filter (s : State) : s.blockReset.filter = FilterState.zero := rfl
@[simp] theorem State.blockReset_ctrl (s : State) : s.blockReset.ctrl = Control.zero := rfl
@[simp] theorem State.blockReset_port (s : State) : s.blockReset.port = none := rfl
@[simp] theorem State.blockReset_driven (s : State) : s.blockReset.driven = s.driven := rfl
@[simp] theorem State.blockReset_portMap (s : State) : s.blockReset.portMap = s.portMap := rfl
@[simp] theorem State.blockReset_draws (s : State) : s.blockReset.draws = s.draws := rfl
@[simp] theorem State.blockReset_faulted (s : State) : s.blockReset.faulted = s.faulted := rfl
@[simp] theorem State.blockReset_inputs (s : State) : s.blockReset.inputs = s.inputs := rfl

/-! ### `State.countLoad` -/

@[simp] theorem State.countLoad_regs (s : State) : s.countLoad.regs = s.regs := rfl
@[simp] theorem State.countLoad_pc (s : State) : s.countLoad.pc = s.pc := rfl
@[simp] theorem State.countLoad_trap (s : State) : s.countLoad.trap = s.trap := rfl
@[simp] theorem State.countLoad_mem (s : State) : s.countLoad.mem = s.mem := rfl
@[simp] theorem State.countLoad_filter (s : State) : s.countLoad.filter = s.filter := rfl
@[simp] theorem State.countLoad_ctrl (s : State) : s.countLoad.ctrl = s.ctrl := rfl
@[simp] theorem State.countLoad_port (s : State) : s.countLoad.port = s.port := rfl
@[simp] theorem State.countLoad_driven (s : State) : s.countLoad.driven = s.driven := rfl
@[simp] theorem State.countLoad_portMap (s : State) : s.countLoad.portMap = s.portMap := rfl
@[simp] theorem State.countLoad_draws (s : State) : s.countLoad.draws = s.draws + 1 := rfl
@[simp] theorem State.countLoad_faulted (s : State) : s.countLoad.faulted = s.faulted := rfl
@[simp] theorem State.countLoad_inputs (s : State) : s.countLoad.inputs = s.inputs := rfl

/-! ### `State.writeReg` and `State.retire` -/

@[simp] theorem State.writeReg_pc (s : State) (r : RegIdx) (v : Word) :
    (s.writeReg r v).pc = s.pc := by
  unfold State.writeReg; split <;> rfl
@[simp] theorem State.writeReg_trap (s : State) (r : RegIdx) (v : Word) :
    (s.writeReg r v).trap = s.trap := by
  unfold State.writeReg; split <;> rfl
@[simp] theorem State.writeReg_mem (s : State) (r : RegIdx) (v : Word) :
    (s.writeReg r v).mem = s.mem := by
  unfold State.writeReg; split <;> rfl
@[simp] theorem State.writeReg_filter (s : State) (r : RegIdx) (v : Word) :
    (s.writeReg r v).filter = s.filter := by
  unfold State.writeReg; split <;> rfl
@[simp] theorem State.writeReg_ctrl (s : State) (r : RegIdx) (v : Word) :
    (s.writeReg r v).ctrl = s.ctrl := by
  unfold State.writeReg; split <;> rfl
@[simp] theorem State.writeReg_port (s : State) (r : RegIdx) (v : Word) :
    (s.writeReg r v).port = s.port := by
  unfold State.writeReg; split <;> rfl
@[simp] theorem State.writeReg_driven (s : State) (r : RegIdx) (v : Word) :
    (s.writeReg r v).driven = s.driven := by
  unfold State.writeReg; split <;> rfl
@[simp] theorem State.writeReg_portMap (s : State) (r : RegIdx) (v : Word) :
    (s.writeReg r v).portMap = s.portMap := by
  unfold State.writeReg; split <;> rfl
@[simp] theorem State.writeReg_draws (s : State) (r : RegIdx) (v : Word) :
    (s.writeReg r v).draws = s.draws := by
  unfold State.writeReg; split <;> rfl
@[simp] theorem State.writeReg_faulted (s : State) (r : RegIdx) (v : Word) :
    (s.writeReg r v).faulted = s.faulted := by
  unfold State.writeReg; split <;> rfl
@[simp] theorem State.writeReg_inputs (s : State) (r : RegIdx) (v : Word) :
    (s.writeReg r v).inputs = s.inputs := by
  unfold State.writeReg; split <;> rfl

@[simp] theorem State.retire_pc (s : State) (r : RegIdx) (v : Word) :
    (s.retire r v).pc = s.pc + 4 := by
  simp [State.retire]
@[simp] theorem State.retire_trap (s : State) (r : RegIdx) (v : Word) :
    (s.retire r v).trap = s.trap := by
  simp [State.retire]
@[simp] theorem State.retire_mem (s : State) (r : RegIdx) (v : Word) :
    (s.retire r v).mem = s.mem := by
  simp [State.retire]
@[simp] theorem State.retire_filter (s : State) (r : RegIdx) (v : Word) :
    (s.retire r v).filter = s.filter := by
  simp [State.retire]
@[simp] theorem State.retire_ctrl (s : State) (r : RegIdx) (v : Word) :
    (s.retire r v).ctrl = s.ctrl := by
  simp [State.retire]
@[simp] theorem State.retire_port (s : State) (r : RegIdx) (v : Word) :
    (s.retire r v).port = s.port := by
  simp [State.retire]
@[simp] theorem State.retire_driven (s : State) (r : RegIdx) (v : Word) :
    (s.retire r v).driven = s.driven := by
  simp [State.retire]
@[simp] theorem State.retire_portMap (s : State) (r : RegIdx) (v : Word) :
    (s.retire r v).portMap = s.portMap := by
  simp [State.retire]
@[simp] theorem State.retire_draws (s : State) (r : RegIdx) (v : Word) :
    (s.retire r v).draws = s.draws := by
  simp [State.retire]
@[simp] theorem State.retire_faulted (s : State) (r : RegIdx) (v : Word) :
    (s.retire r v).faulted = s.faulted := by
  simp [State.retire]
@[simp] theorem State.retire_inputs (s : State) (r : RegIdx) (v : Word) :
    (s.retire r v).inputs = s.inputs := by
  simp [State.retire]

/-! ### Register reads -/

theorem State.readReg_congr {s t : State} (h : t.regs = s.regs) (r : RegIdx) :
    t.readReg r = s.readReg r := by
  simp [State.readReg, h]

@[simp] theorem State.readReg_zero (s : State) : s.readReg 0 = 0 := rfl

/-- What a register holds after a write: the value written, but 0 in register 0 (R11, R21). -/
theorem State.readReg_writeReg (s : State) (r r' : RegIdx) (v : Word) :
    (s.writeReg r v).readReg r' = if r' = 0 then 0 else if r' = r then v else s.readReg r' := by
  unfold State.writeReg State.readReg
  by_cases hr' : r' = 0
  · rw [if_pos hr', if_pos hr']
  · have hpos' : r'.toNat ≠ 0 := fun h => hr' (BitVec.eq_of_toNat_eq h)
    have hlt' : r'.toNat < 32 := r'.isLt
    rw [if_neg hr', if_neg hr', if_neg hr']
    by_cases hr : r = 0
    · have hne : r' ≠ r := by rw [hr]; exact hr'
      rw [if_pos hr, if_neg hne]
    · have hpos : r.toNat ≠ 0 := fun h => hr (BitVec.eq_of_toNat_eq h)
      have hlt : r.toNat < 32 := r.isLt
      rw [if_neg hr]
      by_cases he : r' = r
      · subst he
        rw [if_pos rfl, Vector.getElem?_setIfInBounds, if_pos rfl, if_pos (by omega)]
        rfl
      · have hne : r.toNat - 1 ≠ r'.toNat - 1 := fun h => he (BitVec.eq_of_toNat_eq (by omega))
        rw [if_neg he, Vector.getElem?_setIfInBounds, if_neg hne]

@[simp] theorem State.readReg_setPc (s : State) (v : Word) (r : RegIdx) :
    (s.setPc v).readReg r = s.readReg r := rfl

@[simp] theorem State.readReg_advancePc (s : State) (r : RegIdx) :
    s.advancePc.readReg r = s.readReg r := rfl

theorem State.readReg_retire (s : State) (rd r : RegIdx) (y : Word) :
    (s.retire rd y).readReg r = if r = 0 then 0 else if r = rd then y else s.readReg r := by
  simp [State.retire, State.readReg_writeReg]

end Sys2Proof.Machine
end

