-- ==== Sys2Proof/Laws/Agents.lean ====
section
/-!
SUPPORT. What one step of the machine can be: the fault of a FAULTED state, the host's turn, the NSE's
turn, or another input of the environment. Proofs about `step` cite these and unfold no turn.
-/
namespace Sys2Proof.Machine

/-- When bytes meet the busy buffer (R62). -/
theorem touchesBuffer_iff {s : State} {a n : Nat} : s.touchesBuffer a n = true ↔
    s.ctrl.busy = true ∧ ∃ j, j < n ∧ s.ctrl.bufBase.toNat ≤ a + j ∧
      a + j < s.ctrl.bufBase.toNat + s.ctrl.bufLen.toNat := by
  rw [State.touchesBuffer, Bool.and_eq_true, decide_eq_true_eq]
  refine and_congr_right fun _ => ⟨fun h => ⟨s.ctrl.bufBase.toNat - a, ?_⟩, fun ⟨j, h⟩ => ?_⟩ <;> omega

/-- When the host's code at its pc has no step of any kind (R264, R266). -/
theorem hostStalled_iff {s : State} : s.hostStalled = true ↔
    s.port.isSome = true ∨ s.trap = none ∧ s.touchesBuffer s.pc.toNat 4 = true := by
  simp [State.hostStalled, State.ownCodeInBuffer]

/-- Where the host's code is stalled, every input waits but the NSE's
turn and a reset (R264, R266). -/
theorem mustWait_of_hostStalled {s : State} {i : Input} (h : s.hostStalled = true)
    (he : i ≠ .engine) (hr : i ≠ .reset) : s.mustWait i = true := by
  cases i with
  | instr =>
    rcases hostStalled_iff.mp h with hp | ⟨-, ht⟩
    · simp [State.mustWait, State.hostBlocked, hp]
    · simp [State.mustWait, State.hostBlocked, ht]
  | engine => exact absurd rfl he
  | reset => exact absurd rfl hr
  | present p => exact h
  | own rd v target => exact h
  | store a b => simp [State.mustWait, h]

theorem step_of_faulted {s : State} {r : Fault} (h : s.faulted = some r) : step s = .fault r := by
  simp only [step, turn, h]

/-- The step of a state with an input whose agent can step. -/
theorem step_of_input {s : State} {i : Input} {rest : List Input} (hf : s.faulted = none)
    (hi : s.inputs = i :: rest) (hw : s.mustWait i = false) :
    step s = runInput i { s with inputs := rest } := by
  unfold step turn
  split
  · simp_all
  · split
    · simp_all
    · rename_i j r hj
      rw [hi] at hj
      injection hj with h1 h2
      subst h1 h2
      rw [hw]
      rfl

/-- The step of a state with an input whose agent must wait: the NSE moves and the input stays. -/
theorem step_of_waiting {s : State} {i : Input} {rest : List Input} (hf : s.faulted = none)
    (hi : s.inputs = i :: rest) (hw : s.mustWait i = true) : step s = .next s.engineStep := by
  unfold step turn
  split
  · simp_all
  · split
    · simp_all
    · rename_i j r hj
      rw [hi] at hj
      injection hj with h1 h2
      subst h1 h2
      rw [hw]
      rfl

/-- The step of a state without inputs. -/
theorem step_of_no_input {s : State} (hf : s.faulted = none) (hi : s.inputs = []) :
    step s = if s.engineReady then .next s.engineStep else hostTurn s := by
  unfold step turn
  split
  · simp_all
  · split
    · rfl
    · simp_all

/-- When it is the host's turn, the step is it. -/
theorem step_of_hostFetches {s s' : State} {w : Word} (h : HostFetches s s' w) :
    step s = hostTurn s' := by
  obtain ⟨hf, ⟨hi, hr, rfl⟩ | ⟨rest, hi, hb, rfl⟩, -⟩ := h
  · rw [step_of_no_input hf hi, hr]
    rfl
  · exact step_of_input hf hi hb

/-- When it is the NSE's turn, the step is it. -/
theorem step_of_engineMoves {s s' : State} (h : EngineMoves s s') : step s = .next s'.engineStep := by
  obtain ⟨hf, ⟨hi, hr, rfl⟩ | ⟨rest, hi, rfl⟩ | ⟨i, rest, hi, hw, rfl⟩⟩ := h
  · rw [step_of_no_input hf hi, hr]
    rfl
  · exact step_of_input hf hi rfl
  · exact step_of_waiting hf hi hw

/-- The NSE's turn runs on the state itself, but for the input it may have consumed. -/
theorem EngineMoves.same {s s' : State} (h : EngineMoves s s') :
    ∃ rest, s' = { s with inputs := rest } := by
  obtain ⟨-, ⟨-, -, rfl⟩ | ⟨rest, -, rfl⟩ | ⟨i, rest, -, -, rfl⟩⟩ := h
  · exact ⟨_, rfl⟩
  · exact ⟨rest, rfl⟩
  · exact ⟨_, rfl⟩

/-- The host's turn runs on the state itself, but for the input it may have consumed. -/
theorem HostFetches.same {s s' : State} {w : Word} (h : HostFetches s s' w) :
    ∃ rest, s' = { s with inputs := rest } := by
  obtain ⟨-, ⟨-, -, rfl⟩ | ⟨rest, -, -, rfl⟩, -⟩ := h
  · exact ⟨_, rfl⟩
  · exact ⟨rest, rfl⟩

/-- Every step that goes on is the NSE's turn, the host's turn, or another input taken. -/
theorem step_cases {s t : State} (h : step s = .next t) :
    s.faulted = none ∧
    ((∃ s', EngineMoves s s' ∧ t = s'.engineStep) ∨
      (∃ rest, hostTurn { s with inputs := rest } = .next t ∧
        (s.engineReady = false ∨ s.hostBlocked = false)) ∨
      ∃ i rest, s.inputs = i :: rest ∧ s.mustWait i = false ∧ i ≠ .instr ∧ i ≠ .engine ∧
        runInput i { s with inputs := rest } = .next t) := by
  have hf : s.faulted = none := by
    cases hf : s.faulted with
    | none => rfl
    | some r => simp [step_of_faulted hf] at h
  refine ⟨hf, ?_⟩
  cases hi : s.inputs with
  | nil =>
    rw [step_of_no_input hf hi] at h
    cases hr : s.engineReady with
    | true =>
      rw [hr] at h
      injection h with h
      exact .inl ⟨s, ⟨hf, .inl ⟨hi, hr, rfl⟩⟩, h.symm⟩
    | false =>
      rw [hr] at h
      exact .inr (.inl ⟨s.inputs, h, .inl rfl⟩)
  | cons i rest =>
    cases hw : s.mustWait i with
    | true =>
      rw [step_of_waiting hf hi hw] at h
      injection h with h
      exact .inl ⟨s, ⟨hf, .inr (.inr ⟨i, rest, hi, hw, rfl⟩)⟩, h.symm⟩
    | false =>
      rw [step_of_input hf hi hw] at h
      by_cases he : i = .engine
      · subst he
        injection h with h
        exact .inl ⟨_, ⟨hf, .inr (.inl ⟨rest, hi, rfl⟩)⟩, h.symm⟩
      · by_cases hn : i = .instr
        · subst hn
          exact .inr (.inl ⟨rest, h, .inr hw⟩)
        · exact .inr (.inr ⟨i, rest, rfl, hw, hn, he, h⟩)

end Sys2Proof.Machine
end

