-- ==== Sys2Proof/Laws/Memory.lean ====
section
/-!
SUPPORT. The laws of memory: a read after a write, and that every write keeps the canonical form.
-/
namespace Sys2Proof.Machine

theorem memoryWfFrom_cons (lo k : Nat) (b : Byte) (m : Memory) :
    memoryWfFrom lo ((k, b) :: m) = true ↔
      lo ≤ k ∧ k < addressLimit ∧ b ≠ unlistedByte ∧ memoryWfFrom (k + 1) m = true := by
  simp [memoryWfFrom, and_assoc]

theorem memoryWfFrom_mono {lo lo' : Nat} {m : Memory} (h : memoryWfFrom lo m = true) (hle : lo' ≤ lo) :
    memoryWfFrom lo' m = true := by
  cases m with
  | nil => rfl
  | cons e m =>
    obtain ⟨k, b⟩ := e
    rw [memoryWfFrom_cons] at h ⊢
    exact ⟨by omega, h.2⟩

theorem readByte_below {lo a : Nat} {m : Memory} (h : memoryWfFrom lo m = true) (ha : a < lo) :
    readByte m a = unlistedByte := by
  induction m generalizing lo with
  | nil => rfl
  | cons e m ih =>
    obtain ⟨k, b⟩ := e
    rw [memoryWfFrom_cons] at h
    have hk : k ≠ a := by omega
    simp only [readByte, if_neg hk]
    exact ih h.2.2.2 (by omega)

/-- A write keeps the canonical form. -/
theorem memoryWfFrom_writeByte {lo a : Nat} {m : Memory} (b : Byte) (h : memoryWfFrom lo m = true)
    (hlo : lo ≤ a) (ha : a < addressLimit) : memoryWfFrom lo (writeByte m a b) = true := by
  induction m generalizing lo with
  | nil =>
    by_cases hb : b = unlistedByte
    · simp [writeByte, hb, memoryWfFrom]
    · simp [writeByte, hb, memoryWfFrom, hlo, ha]
  | cons e m ih =>
    obtain ⟨k, c⟩ := e
    have h' := (memoryWfFrom_cons _ _ _ _).1 h
    simp only [writeByte]
    split
    · rw [memoryWfFrom_cons]
      exact ⟨h'.1, h'.2.1, h'.2.2.1, ih h'.2.2.2 (by omega)⟩
    · split
      · split
        · exact memoryWfFrom_mono h'.2.2.2 (by omega)
        · rename_i hk hb
          rw [memoryWfFrom_cons]
          exact ⟨hlo, ha, hb, by rw [← hk]; exact h'.2.2.2⟩
      · split
        · exact h
        · rename_i hlt hne hb
          rw [memoryWfFrom_cons]
          refine ⟨hlo, ha, hb, ?_⟩
          rw [memoryWfFrom_cons]
          exact ⟨by omega, h'.2⟩

/-- A read after a write of one byte. -/
theorem readByte_writeByte {lo : Nat} {m : Memory} (a c : Nat) (b : Byte)
    (h : memoryWfFrom lo m = true) :
    readByte (writeByte m a b) c = if c = a then b else readByte m c := by
  induction m generalizing lo with
  | nil =>
    by_cases hb : b = unlistedByte
    · by_cases hc : c = a <;> simp [writeByte, hb, readByte, hc]
    · by_cases hc : c = a
      · simp [writeByte, hb, readByte, hc]
      · simp [writeByte, hb, readByte, hc, Ne.symm hc]
  | cons e m ih =>
    obtain ⟨k, d⟩ := e
    have h' := (memoryWfFrom_cons _ _ _ _).1 h
    have ih' := ih h'.2.2.2
    simp only [writeByte]
    split
    · rename_i hlt
      by_cases hkc : k = c
      · have : c ≠ a := by omega
        simp [readByte, hkc, this]
      · simp only [readByte, if_neg hkc]
        exact ih'
    · split
      · rename_i hka
        split
        · rename_i hb
          by_cases hc : c = a
          · simp only [if_pos hc]
            rw [hb]
            exact readByte_below h'.2.2.2 (by omega)
          · have : k ≠ c := by omega
            simp [readByte, hc, this]
        · by_cases hc : c = a
          · simp [readByte, hc]
          · have h1 : a ≠ c := by omega
            have h2 : k ≠ c := by omega
            simp [readByte, hc, h1, h2]
      · split
        · rename_i hlt hne hb
          by_cases hc : c = a
          · simp only [if_pos hc]
            have : k ≠ c := by omega
            simp only [readByte, if_neg this]
            rw [hb]
            exact readByte_below h'.2.2.2 (by omega)
          · simp [hc]
        · by_cases hc : c = a
          · simp [readByte, hc]
          · have h1 : a ≠ c := by omega
            simp [readByte, hc, h1]

theorem wf_writeByte {m : Memory} {a : Nat} (b : Byte) (h : m.wf = true) (ha : a < addressLimit) :
    (writeByte m a b).wf = true :=
  memoryWfFrom_writeByte b h (Nat.zero_le _) ha

theorem readByte_writeByte_of_wf {m : Memory} (a c : Nat) (b : Byte) (h : m.wf = true) :
    readByte (writeByte m a b) c = if c = a then b else readByte m c :=
  readByte_writeByte a c b h

/-- A wide write keeps the canonical form while it stays in the address space. -/
theorem wf_memWrite {m : Memory} {a n v : Nat} (h : m.wf = true) (ha : a + n ≤ addressLimit) :
    (memWrite m a n v).wf = true := by
  induction n generalizing m a v with
  | zero => exact h
  | succ n ih => exact ih (wf_writeByte _ h (by omega)) (by omega)

/-- A wide write leaves every byte outside it alone, and puts byte `j` of the value at `a + j`. -/
theorem readByte_memWrite {m : Memory} {a n v c : Nat} (h : m.wf = true) (ha : a + n ≤ addressLimit) :
    readByte (memWrite m a n v) c =
      if a ≤ c ∧ c < a + n then BitVec.ofNat 8 (v / 256 ^ (c - a)) else readByte m c := by
  induction n generalizing m a v with
  | zero =>
    have : ¬(a ≤ c ∧ c < a + 0) := by omega
    rw [if_neg this, memWrite]
  | succ n ih =>
    simp only [memWrite]
    rw [ih (wf_writeByte _ h (by omega)) (by omega)]
    rw [readByte_writeByte_of_wf _ _ _ h]
    by_cases h1 : a + 1 ≤ c ∧ c < a + 1 + n
    · have h2 : a ≤ c ∧ c < a + (n + 1) := by omega
      simp only [if_pos h1, if_pos h2]
      have h3 : c - a = (c - (a + 1)) + 1 := by omega
      rw [h3, Nat.pow_succ, Nat.mul_comm, Nat.div_div_eq_div_mul]
    · by_cases hc : c = a
      · subst hc
        have h2 : c ≤ c ∧ c < c + (n + 1) := by omega
        rw [if_neg h1, if_pos rfl, if_pos h2, Nat.sub_self, Nat.pow_zero, Nat.div_one]
      · have h2 : ¬(a ≤ c ∧ c < a + (n + 1)) := by omega
        rw [if_neg h1, if_neg hc, if_neg h2]

/-- A wide read depends on its own bytes alone. -/
theorem memRead_congr {m m' : Memory} {a n : Nat}
    (h : ∀ c, a ≤ c → c < a + n → readByte m' c = readByte m c) : memRead m' a n = memRead m a n := by
  induction n generalizing a with
  | zero => rfl
  | succ n ih =>
    simp only [memRead]
    rw [h a (by omega) (by omega), ih fun c h1 h2 => h c (by omega) (by omega)]

/-- A wide read of bytes that hold a value little-endian. -/
theorem memRead_of_bytes {m : Memory} {a n v : Nat}
    (h : ∀ j, j < n → readByte m (a + j) = BitVec.ofNat 8 (v / 256 ^ j)) :
    memRead m a n = v % 256 ^ n := by
  induction n generalizing a v with
  | zero => simp [memRead, Nat.mod_one]
  | succ n ih =>
    have h0 := h 0 (by omega)
    have hr : memRead m (a + 1) n = v / 256 % 256 ^ n := by
      apply ih
      intro j hj
      have := h (j + 1) (by omega)
      rw [Nat.add_assoc, Nat.add_comm 1 j, this, Nat.div_div_eq_div_mul, Nat.pow_succ, Nat.mul_comm]
    simp only [memRead]
    rw [hr]
    simp only [Nat.add_zero, Nat.pow_zero, Nat.div_one] at h0
    have h256 : (256 : Nat) ^ (n + 1) = 256 * 256 ^ n := by rw [Nat.pow_succ, Nat.mul_comm]
    rw [h0, BitVec.toNat_ofNat, h256, Nat.mod_mul]

/-- A wide read after a wide write of the same bytes gives the value written (R12). -/
theorem memRead_memWrite {m : Memory} {a n v : Nat} (h : m.wf = true) (ha : a + n ≤ addressLimit) :
    memRead (memWrite m a n v) a n = v % 256 ^ n := by
  apply memRead_of_bytes
  intro j hj
  rw [readByte_memWrite h ha, if_pos ⟨by omega, by omega⟩, Nat.add_sub_cancel_left]

theorem memRead_lt (m : Memory) (a n : Nat) : memRead m a n < 256 ^ n := by
  induction n generalizing a with
  | zero => simp [memRead]
  | succ n ih =>
    have h1 := ih (a + 1)
    have h2 := (readByte m a).isLt
    simp only [memRead, Nat.pow_succ]
    omega

end Sys2Proof.Machine
end

