-- ==== Sys2Proof/Laws/Bus.lean ====
section
/-!
SUPPORT. What a host store can do: it writes the bytes it stores to, drives the command port's inputs or
presents a command, and nothing else (spec/20_memory.md R59; spec/41_engine.md R150).
-/
namespace Sys2Proof.Machine

theorem addressLimit_word (a : Word) : a.toNat < addressLimit := a.isLt

/-- What every host store keeps: the host's registers, pc and exception, the block, the placement; and
memory in canonical form. -/
structure StoreKeeps (s t : State) : Prop where
  regs : t.regs = s.regs
  pc : t.pc = s.pc
  trap : t.trap = s.trap
  filter : t.filter = s.filter
  ctrl : t.ctrl = s.ctrl
  portMap : t.portMap = s.portMap
  draws : t.draws = s.draws
  faulted : t.faulted = s.faulted
  inputs : t.inputs = s.inputs

theorem busWriteByte_keeps (s : State) (a : Nat) (b : Byte) :
    StoreKeeps s (s.busWriteByte a b) ∧ (s.busWriteByte a b).port = s.port := by
  rw [State.busWriteByte]
  split <;> exact ⟨⟨rfl, rfl, rfl, rfl, rfl, rfl, rfl, rfl, rfl⟩, rfl⟩

theorem busWrite_keeps (s : State) (a n v : Nat) :
    StoreKeeps s (s.busWrite a n v) ∧ (s.busWrite a n v).port = s.port := by
  induction n generalizing s a v with
  | zero => exact ⟨⟨rfl, rfl, rfl, rfl, rfl, rfl, rfl, rfl, rfl⟩, rfl⟩
  | succ n ih =>
    obtain ⟨h1, h2⟩ := busWriteByte_keeps s a (BitVec.ofNat 8 v)
    obtain ⟨h3, h4⟩ := ih (s.busWriteByte a (BitVec.ofNat 8 v)) (a + 1) (v / 256)
    exact ⟨⟨h3.regs.trans h1.regs, h3.pc.trans h1.pc, h3.trap.trans h1.trap, h3.filter.trans h1.filter,
      h3.ctrl.trans h1.ctrl, h3.portMap.trans h1.portMap, h3.draws.trans h1.draws,
      h3.faulted.trans h1.faulted, h3.inputs.trans h1.inputs⟩, h4.trans h2⟩

/-- A host store keeps everything but memory, what is driven and the command at the port. -/
theorem hostWrite_keeps (s : State) (a n v : Nat) : StoreKeeps s (s.hostWrite a n v) := by
  obtain ⟨h, -⟩ := busWrite_keeps s a n v
  rw [State.hostWrite]
  split
  · exact ⟨h.regs, h.pc, h.trap, h.filter, h.ctrl, h.portMap, h.draws, h.faulted, h.inputs⟩
  · exact h

/-- The memory a host store leaves is that of its bytes. -/
theorem hostWrite_mem (s : State) (a n v : Nat) : (s.hostWrite a n v).mem = (s.busWrite a n v).mem := by
  rw [State.hostWrite]
  split <;> rfl

/-- A store that drives no byte of CMD presents nothing (R150). -/
theorem hostWrite_port (s : State) (a n v : Nat) :
    (s.hostWrite a n v).port =
      if s.writesCmd a n then some (s.busWrite a n v).driven else s.port := by
  rw [State.hostWrite]
  split
  · rfl
  · exact (busWrite_keeps s a n v).2

theorem busWriteByte_mem (s : State) (a : Nat) (b : Byte) :
    (s.busWriteByte a b).mem = if s.portAt a = none then writeByte s.mem a b else s.mem := by
  rw [State.busWriteByte]
  split <;> simp_all

/-- A host store keeps memory in canonical form. -/
theorem wf_busWrite {s : State} (h : s.mem.wf = true) {a n v : Nat} (ha : a + n ≤ addressLimit) :
    (s.busWrite a n v).mem.wf = true := by
  induction n generalizing s a v with
  | zero => exact h
  | succ n ih =>
    refine ih ?_ (by omega)
    rw [busWriteByte_mem]
    split
    · exact memoryWfFrom_writeByte _ h (Nat.zero_le _) (by omega)
    · exact h

/-- A host store leaves every byte of memory it does not store to. -/
theorem readByte_busWrite {s : State} (h : s.mem.wf = true) {a n v c : Nat} (ha : a + n ≤ addressLimit)
    (hc : ¬(a ≤ c ∧ c < a + n)) : readByte (s.busWrite a n v).mem c = readByte s.mem c := by
  induction n generalizing s a v with
  | zero => rfl
  | succ n ih =>
    have hw : (s.busWriteByte a (BitVec.ofNat 8 v)).mem.wf = true := by
      rw [busWriteByte_mem]
      split
      · exact memoryWfFrom_writeByte _ h (Nat.zero_le _) (by omega)
      · exact h
    refine (ih hw (by omega) (by omega)).trans ?_
    rw [busWriteByte_mem]
    split
    · rw [readByte_writeByte _ _ _ h, if_neg (by omega)]
    · rfl

theorem wf_hostWrite {s : State} (h : s.mem.wf = true) {a n v : Nat} (ha : a + n ≤ addressLimit) :
    (s.hostWrite a n v).mem.wf = true := by
  rw [hostWrite_mem]
  exact wf_busWrite h ha

theorem readByte_hostWrite {s : State} (h : s.mem.wf = true) {a n v c : Nat} (ha : a + n ≤ addressLimit)
    (hc : ¬(a ≤ c ∧ c < a + n)) : readByte (s.hostWrite a n v).mem c = readByte s.mem c := by
  rw [hostWrite_mem]
  exact readByte_busWrite h ha hc

/-- Where no register is placed, a host store is a store to memory (R62). -/
theorem hostWrite_of_memory {s : State} {a n : Nat} (v : Nat)
    (h : ∀ j, j < n → s.portAt (a + j) = none) :
    s.hostWrite a n v = { s with mem := memWrite s.mem a n v } := by
  have hw : ∀ (n a v : Nat) (s : State), (∀ j, j < n → s.portAt (a + j) = none) →
      s.busWrite a n v = { s with mem := memWrite s.mem a n v } := by
    intro n
    induction n with
    | zero => intros; rfl
    | succ n ih =>
      intro a v s h
      have h0 : s.portAt a = none := h 0 (by omega)
      rw [State.busWrite, State.busWriteByte, h0]
      exact ih _ _ _ fun j hj => by
        have := h (j + 1) (by omega)
        rwa [show a + (j + 1) = a + 1 + j by omega] at this
  have hc : s.writesCmd a n = false := by
    rw [State.writesCmd, List.any_eq_false]
    intro j hj
    rw [h j (List.mem_range.1 hj)]
    simp
  rw [State.hostWrite, hc, hw n a v s h]
  rfl

/-- A byte driven replaces that byte and no other (R150). -/
theorem byte_putByte {n : Nat} (v : BitVec n) (k : Nat) (b : Byte) {j : Nat} (hj : 8 * j + 8 ≤ n) :
    (putByte v k b).extractLsb' (8 * j) 8 = if k = j then b else v.extractLsb' (8 * j) 8 := by
  apply BitVec.eq_of_getLsbD_eq
  intro i hi
  have hin : 8 * j + i < n := by omega
  have e : ∀ w : BitVec n, (w.extractLsb' (8 * j) 8).getLsbD i = w.getLsbD (8 * j + i) := by
    intro w
    simp [hi]
  rw [e, putByte]
  simp only [BitVec.getLsbD_or, BitVec.getLsbD_and, BitVec.getLsbD_not, BitVec.getLsbD_shiftLeft,
    BitVec.getLsbD_setWidth, BitVec.getLsbD_allOnes, hin]
  split
  · rename_i h
    subst h
    have h1 : 8 * k + i - 8 * k = i := by omega
    have h2 : ¬8 * k + i < 8 * k := by omega
    have h3 : i < n := by omega
    simp [h1, h2, h3, hi]
  · rw [e]
    by_cases hlt : 8 * j + i < 8 * k
    · simp [hlt]
    · have h8 : ¬8 * j + i - 8 * k < 8 := by omega
      rw [BitVec.getLsbD_of_ge b _ (by omega)]
      simp [hlt, h8]

/-- The code a store to CMD drives: the two low bits (R83, R150). -/
theorem putByte_cmd (v : BitVec 2) (b : Byte) (k : Nat) :
    putByte v k b = if k = 0 then b.setWidth 2 else v := by
  split
  · rename_i h
    subst h
    have : (BitVec.allOnes 8).setWidth 2 <<< (8 * 0) = BitVec.allOnes 2 := by decide
    rw [putByte, this]
    simp
  · rw [putByte, BitVec.shiftLeft_eq_zero (by omega), BitVec.shiftLeft_eq_zero (by omega), BitVec.or_zero,
      BitVec.not_zero, BitVec.and_allOnes]

/-- The host's store of one byte, by what is placed at its address (R59, R62, R150). -/
theorem hostStore_eq (s : State) (a : Word) (b : Byte) :
    s.hostStore a b =
      match s.portAt a.toNat with
      | none => { s with mem := writeByte s.mem a.toNat b }
      | some (r, k) =>
        let t : State := { s with driven := s.driven.drive r k b }
        if r = .cmd ∧ k = 0 then t.present t.driven else t := by
  have hb : BitVec.ofNat 8 b.toNat = b := by simp
  rw [State.hostStore, State.hostWrite]
  have e : s.busWrite a.toNat 1 b.toNat = s.busWriteByte a.toNat b := by
    simp only [State.busWrite, hb]
  simp only [e, State.writesCmd, State.busWriteByte]
  cases h : s.portAt a.toNat with
  | none => simp [List.range_succ, h]
  | some c =>
    obtain ⟨r, k⟩ := c
    simp [List.range_succ, h]

end Sys2Proof.Machine
end

