-- ==== Sys2Proof/Laws/Decode.lean ====
section
/-!
SUPPORT. The R format as a bijection between words and fields: taking a word apart and putting it
together again lose nothing.
-/
namespace Sys2Proof

theorem fieldsOf_wordOf (f : Fields) : fieldsOf (wordOf f) = f := by
  obtain ⟨f7, rs2, rs1, f3, rd, op⟩ := f
  simp only [fieldsOf, wordOf, Fields.mk.injEq]
  refine ⟨?_, ?_, ?_, ?_, ?_, ?_⟩ <;> apply BitVec.eq_of_getLsbD_eq <;> intro i hi <;>
    simp only [BitVec.getLsbD_extractLsb', BitVec.getLsbD_append, hi, decide_true, Bool.true_and] <;>
    repeat' split
  all_goals first | (exfalso; omega) | (congr 1; omega)

theorem wordOf_fieldsOf (w : Word) : wordOf (fieldsOf w) = w := by
  apply BitVec.eq_of_getLsbD_eq
  intro i hi
  simp only [fieldsOf, wordOf, BitVec.getLsbD_extractLsb', BitVec.getLsbD_append]
  repeat' split
  all_goals
    first
    | (rw [decide_eq_true (by omega), Bool.true_and]; congr 1; omega)

theorem wordOf_inj {f g : Fields} (h : wordOf f = wordOf g) : f = g := by
  rw [← fieldsOf_wordOf f, ← fieldsOf_wordOf g, h]

/-- A little-endian word is the word of its own bytes (R53). -/
theorem wordOfBytes_bytes (w : Word) :
    wordOfBytes (w.extractLsb' 0 8) (w.extractLsb' 8 8) (w.extractLsb' 16 8) (w.extractLsb' 24 8)
      = w := by
  apply BitVec.eq_of_getLsbD_eq
  intro i hi
  simp only [wordOfBytes, BitVec.getLsbD_extractLsb', BitVec.getLsbD_append]
  repeat' split
  all_goals (rw [decide_eq_true (by omega), Bool.true_and]; congr 1; omega)

theorem decodeBytes_bytesOfWord (w : Word) : decodeBytes (bytesOfWord w) = decode w := by
  rw [bytesOfWord, decodeBytes, wordOfBytes_bytes]

/-- The operation code of a `funct7` at ENC_*'s default: its value, below 10 (R74). -/
theorem opOfFunct7_eq : ∀ f : BitVec 7, opOfFunct7 f = if f.toNat < 10 then some f.toNat else none := by
  decide

theorem opOfFunct7_some {f : BitVec 7} {k : Nat} (h : opOfFunct7 f = some k) : f.toNat = k := by
  rw [opOfFunct7_eq] at h
  split at h
  · exact Option.some.inj h
  · cases h

/-- The `funct7` of an operation at ENC_*'s default is its code (R74). -/
theorem encFunct7_eq (i : Instr) : encFunct7 i.op = i.op.setWidth 7 := by
  cases i <;> rfl

/-- The selector by `funct7` at ENC_*'s default (R74). -/
theorem selectOp_eq (f : BitVec 7) (rd rs1 rs2 : RegIdx) :
    selectOp f rd rs1 rs2 =
      match f.toNat with
      | 0 => some (.clip16 rd rs1 rs2)
      | 1 => some (.abs16 rd rs1)
      | 2 => some (.abs2 rd rs1)
      | 3 => some (.mac16 rd rs1 rs2)
      | 4 => some (.msub16 rd rs1 rs2)
      | 5 => some (.conv4 rd rs1 rs2)
      | 6 => some (.conv8 rd rs1 rs2)
      | 7 => some (.lmsstep rd rs1 rs2)
      | 8 => some (.cmac rd rs1 rs2)
      | 9 => some (.shiftn rd rs1 rs2)
      | _ => none := by
  rw [selectOp, opOfFunct7_eq]
  split <;> split <;> simp_all

/-- The selector has no operation exactly for the values R74 does not assign. -/
theorem selectOp_none {f : BitVec 7} {rd rs1 rs2 : RegIdx} :
    selectOp f rd rs1 rs2 = none ↔ 10 ≤ f.toNat := by
  rw [selectOp_eq]
  split <;> simp_all
  omega

/-- What the selector gives carries the selector's value and its operands (R74, R75). -/
theorem selectOp_some {f : BitVec 7} {rd rs1 rs2 : RegIdx} {i : Instr}
    (h : selectOp f rd rs1 rs2 = some i) :
    i.op.toNat = f.toNat ∧ i.rd = rd ∧ i.rs1 = rs1 ∧
      (isUnary i = true ↔ f.toNat = 1 ∨ f.toNat = 2) ∧ i.rs2 = if isUnary i then 0 else rs2 := by
  rw [selectOp_eq] at h
  split at h <;> simp only [Option.some.injEq, reduceCtorEq] at h <;> subst h <;> rename_i hf <;>
    rw [hf] <;> exact ⟨rfl, rfl, rfl, by simp [isUnary], rfl⟩

/-- Masking a word masks each of its fields. -/
theorem wordOf_and (f g : Fields) :
    wordOf f &&& wordOf g = wordOf ⟨f.funct7 &&& g.funct7, f.rs2 &&& g.rs2, f.rs1 &&& g.rs1,
      f.funct3 &&& g.funct3, f.rd &&& g.rd, f.opcode &&& g.opcode⟩ := by
  apply BitVec.eq_of_getLsbD_eq
  intro i hi
  simp only [wordOf, BitVec.getLsbD_and, BitVec.getLsbD_append]
  repeat' split
  all_goals rfl

/-- The mask of a binary row keeps `funct7`, `funct3` and the opcode (R74). -/
theorem and_maskBinary (f : Fields) :
    wordOf f &&& 0xFE00707F#32 = wordOf { f with rs2 := 0, rs1 := 0, rd := 0 } := by
  have h : 0xFE00707F#32 = wordOf ⟨127, 0, 0, 7, 0, 127⟩ := by decide
  rw [h, wordOf_and]
  congr <;> first | exact BitVec.and_allOnes | exact BitVec.and_zero

/-- The mask of a unary row keeps the `rs2` field too (R74, R77). -/
theorem and_maskUnary (f : Fields) :
    wordOf f &&& 0xFFF0707F#32 = wordOf { f with rs1 := 0, rd := 0 } := by
  have h : 0xFFF0707F#32 = wordOf ⟨127, 31, 0, 7, 0, 127⟩ := by decide
  rw [h, wordOf_and]
  congr <;> first | exact BitVec.and_allOnes | exact BitVec.and_zero

/-- The word of a binary instruction is in its row (R74). -/
theorem encode_and_maskBinary (i : Instr) (h : isUnary i = false) :
    encode i &&& 0xFE00707F#32 = rowMatch i.op.toNat := by
  rw [encode, and_maskBinary]
  cases i <;> first
    | (simp [isUnary] at h; done)
    | (simp only [encodeFields, Instr.op]; rfl)

/-- The word of a unary instruction is in its row (R74, R77). -/
theorem encode_and_maskUnary (i : Instr) (h : isUnary i = true) :
    encode i &&& 0xFFF0707F#32 = rowMatch i.op.toNat := by
  rw [encode, and_maskUnary]
  cases i <;> first
    | (simp [isUnary] at h; done)
    | (simp only [encodeFields, Instr.op, Instr.rs2]; rfl)

/-- The two masks of R74's table. -/
theorem rowMask_eq (op : Nat) :
    rowMask op = if unaryOp op then 0xFFF0707F#32 else 0xFE00707F#32 := by
  unfold rowMask
  split <;> rfl

/-- The word of an instruction is in its row (R74). -/
theorem encode_and_rowMask (i : Instr) : encode i &&& rowMask i.op.toNat = rowMatch i.op.toNat := by
  rw [rowMask_eq]
  have hu : unaryOp i.op.toNat = isUnary i := by cases i <;> rfl
  rw [hu]
  cases h : isUnary i with
  | true => exact encode_and_maskUnary i h
  | false => exact encode_and_maskBinary i h

end Sys2Proof
end

