-- ==== Sys2Proof/Laws/Operands.lean ====
section
/-!
SUPPORT. The laws of lanes, packing and wrapping: what a lane can be, what packing keeps, and when a
wrap does nothing.
-/
namespace Sys2Proof.Machine

/-- The low lane at the default widths (R9). -/
theorem lane0_eq (w : Word) : lane0 w = (w.extractLsb' 0 16).toInt := rfl

/-- The high lane at the default widths (R9). -/
theorem lane1_eq (w : Word) : lane1 w = (w.extractLsb' 16 16).toInt := rfl

theorem sext16_bounds (v : Half) : -32768 ≤ sext16 v ∧ sext16 v ≤ 32767 := by
  have h1 := BitVec.le_toInt v
  have h2 := BitVec.toInt_lt (x := v)
  simp only [sext16]
  omega

theorem lane0_bounds (w : Word) : -32768 ≤ lane0 w ∧ lane0 w ≤ 32767 := sext16_bounds _

theorem lane1_bounds (w : Word) : -32768 ≤ lane1 w ∧ lane1 w ≤ 32767 := sext16_bounds _

theorem s32_bounds (w : Word) : -2147483648 ≤ s32 w ∧ s32 w ≤ 2147483647 := by
  have h1 := BitVec.le_toInt w
  have h2 := BitVec.toInt_lt (x := w)
  simp only [s32]
  omega

theorem u32_bounds (w : Word) : 0 ≤ u32 w ∧ u32 w ≤ 4294967295 := by
  have := w.isLt
  simp only [u32]
  omega

theorem s32_wrap32 {i : Int} (h1 : -2147483648 ≤ i) (h2 : i ≤ 2147483647) : s32 (wrap32 i) = i := by
  simp only [s32, wrap32, BitVec.toInt_ofInt]
  exact Int.bmod_eq_of_le (by omega) (by omega)

theorem u32_wrap32 {i : Int} (h1 : 0 ≤ i) (h2 : i ≤ 4294967295) : u32 (wrap32 i) = i := by
  simp only [u32, wrap32, BitVec.toNat_ofInt]
  omega

theorem wrap32_s32 (w : Word) : wrap32 (s32 w) = w := by simp [wrap32, s32]

theorem wrap16_sext16 (v : Half) : wrap16 (sext16 v) = v := by simp [wrap16, sext16]

theorem sext16_wrap16 {i : Int} (h1 : -32768 ≤ i) (h2 : i ≤ 32767) : sext16 (wrap16 i) = i := by
  simp only [sext16, wrap16, BitVec.toInt_ofInt]
  exact Int.bmod_eq_of_le (by omega) (by omega)

theorem lane0_append (hi lo : Half) : lane0 (hi ++ lo) = sext16 lo := by
  have : (hi ++ lo).extractLsb' 0 16 = lo := by
    apply BitVec.eq_of_getLsbD_eq
    intro i hi'
    rw [BitVec.getLsbD_extractLsb', decide_eq_true hi', Bool.true_and]
    refine (BitVec.getLsbD_append (x := hi) (y := lo)).trans ?_
    rw [if_pos (by omega)]
    congr 1
    omega
  exact congrArg BitVec.toInt this

theorem lane1_append (hi lo : Half) : lane1 (hi ++ lo) = sext16 hi := by
  have : (hi ++ lo).extractLsb' 16 16 = hi := by
    apply BitVec.eq_of_getLsbD_eq
    intro i hi'
    rw [BitVec.getLsbD_extractLsb', decide_eq_true hi', Bool.true_and]
    refine (BitVec.getLsbD_append (x := hi) (y := lo)).trans ?_
    rw [if_neg (by omega)]
    congr 1
    omega
  exact congrArg BitVec.toInt this

/-- Packing keeps the low 16 bits of each lane (R9). -/
theorem lane0_pack (lo hi : Int) : lane0 (pack lo hi) = sext16 (wrap16 lo) := lane0_append _ _

theorem lane1_pack (lo hi : Int) : lane1 (pack lo hi) = sext16 (wrap16 hi) := lane1_append _ _

theorem lane0_pack_of_range {lo : Int} (hi : Int) (h1 : -32768 ≤ lo) (h2 : lo ≤ 32767) :
    lane0 (pack lo hi) = lo := by
  rw [lane0_pack, sext16_wrap16 h1 h2]

theorem lane1_pack_of_range {hi : Int} (lo : Int) (h1 : -32768 ≤ hi) (h2 : hi ≤ 32767) :
    lane1 (pack lo hi) = hi := by
  rw [lane1_pack, sext16_wrap16 h1 h2]

theorem word_of_halves (w : Word) : w.extractLsb' 16 16 ++ w.extractLsb' 0 16 = w := by
  apply BitVec.eq_of_getLsbD_eq
  intro i hi
  rw [BitVec.getLsbD_append]
  by_cases h : i < 16
  · simp [h]
  · have h2 : i - 16 < 16 := by omega
    have h3 : 16 + (i - 16) = i := by omega
    simp [h, h2, h3]

theorem sat_bounds {i lo hi : Int} (h : lo ≤ hi) : lo ≤ sat i lo hi ∧ sat i lo hi ≤ hi := by
  simp only [sat]
  omega

theorem sat_of_range {i lo hi : Int} (h1 : lo ≤ i) (h2 : i ≤ hi) : sat i lo hi = i := by
  simp only [sat]
  omega

theorem asr_eq (i : Int) (n : Nat) : asr i n = i / ((2 ^ n : Nat) : Int) := rfl

theorem byteLane_lt (w : Word) (k : Nat) : byteLane w k < 256 := (w.extractLsb' (8 * k) 8).isLt

theorem nibbleLane_lt (w : Word) (k : Nat) : nibbleLane w k < 16 := (w.extractLsb' (4 * k) 4).isLt

end Sys2Proof.Machine
end

