-- ==== Sys2Proof/Laws/Primitives.lean ====
section
/-!
SUPPORT. The ranges that the operations of the PU work in: products of lanes, rounded shifts, and the
word of two lanes (spec/40_primitives.md R108, R114).
-/
namespace Sys2Proof.Machine

/-- A product of two lanes is exact in 31 bits (R108). -/
theorem mul_lane_bounds {x y : Int} (hx : -32768 ≤ x ∧ x ≤ 32767) (hy : -32768 ≤ y ∧ y ≤ 32767) :
    -1073709056 ≤ x * y ∧ x * y ≤ 1073741824 := by
  obtain ⟨h1, h2⟩ := hx
  obtain ⟨h3, h4⟩ := hy
  constructor <;> nlinarith

/-- A product of two lanes reaches its maximum only at the signed minimum (R108). -/
theorem mul_lane_max {x y : Int} (hx : -32768 ≤ x ∧ x ≤ 32767) (hy : -32768 ≤ y ∧ y ≤ 32767)
    (h : 1073741824 ≤ x * y) : x = -32768 ∧ y = -32768 := by
  obtain ⟨h1, h2⟩ := hx
  obtain ⟨h3, h4⟩ := hy
  constructor <;> by_contra hc
  · have : -32767 ≤ x := by omega
    nlinarith
  · have : -32767 ≤ y := by omega
    nlinarith

/-- A word is the packing of its lanes (R25). -/
theorem pack_lanes (w : Word) : pack (lane0 w) (lane1 w) = w := by
  have h0 : wrap16 (lane0 w) = w.extractLsb' 0 16 := wrap16_sext16 _
  have h1 : wrap16 (lane1 w) = w.extractLsb' 16 16 := wrap16_sext16 _
  rw [pack, h0, h1]
  exact word_of_halves w

/-- `clip16` with a limit that is not negative (R103). -/
theorem puClip16_of_nonneg {a b : Word} (h : 0 ≤ s32 b) :
    puClip16 a b = pack (sat (lane0 a) (-s32 b) (s32 b)) (sat (lane1 a) (-s32 b) (s32 b)) := by
  unfold puClip16
  rw [if_neg (by omega)]

theorem puClip16_of_neg {a b : Word} (h : s32 b < 0) : puClip16 a b = Config.clip16NegLimit a b := by
  unfold puClip16
  rw [if_pos h]

/-- A lane saturated to [-l, l] is still a lane. -/
theorem sat_lane_bounds {v l : Int} (hv : -32768 ≤ v ∧ v ≤ 32767) (hl : 0 ≤ l) :
    -32768 ≤ sat v (-l) l ∧ sat v (-l) l ≤ 32767 := by
  simp only [sat]
  omega

theorem lane0_puClip16 {a b : Word} (h : 0 ≤ s32 b) :
    lane0 (puClip16 a b) = sat (lane0 a) (-s32 b) (s32 b) := by
  have hb := sat_lane_bounds (lane0_bounds a) h
  rw [puClip16_of_nonneg h, lane0_pack_of_range _ hb.1 hb.2]

theorem lane1_puClip16 {a b : Word} (h : 0 ≤ s32 b) :
    lane1 (puClip16 a b) = sat (lane1 a) (-s32 b) (s32 b) := by
  have hb := sat_lane_bounds (lane1_bounds a) h
  rw [puClip16_of_nonneg h, lane1_pack_of_range _ hb.1 hb.2]

theorem absLane_bounds {v : Int} (hv : -32768 ≤ v ∧ v ≤ 32767) :
    0 ≤ absLane v ∧ absLane v ≤ 32767 := by
  unfold absLane
  split <;> omega

theorem lane0_puAbs16 (a : Word) : lane0 (puAbs16 a) = absLane (lane0 a) := by
  have h := absLane_bounds (lane0_bounds a)
  exact lane0_pack_of_range _ (by omega) h.2

theorem lane1_puAbs16 (a : Word) : lane1 (puAbs16 a) = absLane (lane1 a) := by
  have h := absLane_bounds (lane1_bounds a)
  exact lane1_pack_of_range _ (by omega) h.2

/-- The rounded shift of a 32-bit value by 1 to 31 (R114): it always fits. -/
theorem roundShift_bounds {v : Int} {n : Nat} (h1 : -2147483648 ≤ v) (h2 : v ≤ 2147483647)
    (hn : 1 ≤ n) (hn' : n ≤ 31) :
    -1073741824 ≤ roundShift v n ∧ roundShift v n ≤ 1073741824 := by
  obtain ⟨k, rfl⟩ : ∃ k, n = k + 1 := ⟨n - 1, by omega⟩
  unfold roundShift asr
  rw [if_neg (by omega), Nat.add_sub_cancel]
  have hp : (2 : Nat) ^ (k + 1) = 2 * 2 ^ k := by rw [Nat.pow_succ, Nat.mul_comm]
  have hk : 1 ≤ 2 ^ k := Nat.one_le_two_pow
  have hk' : 2 ^ k ≤ 2 ^ 30 := Nat.pow_le_pow_right (by omega) (by omega)
  generalize 2 ^ k = q at *
  rw [hp]
  constructor
  · rw [Int.le_ediv_iff_mul_le (by omega)]
    push_cast
    nlinarith
  · have : (v + (q : Int)) / ((2 * q : Nat) : Int) < 1073741825 := by
      rw [Int.ediv_lt_iff_lt_mul (by omega)]
      push_cast
      nlinarith
    omega

theorem shiftAmount_lt (b : Word) : shiftAmount b < 32 := (b.extractLsb' 0 5).isLt

theorem shiftAmount_eq (b : Word) : shiftAmount b = b.toNat % 32 := by
  simp [shiftAmount]

/-- `shiftn` as an exact integer (R114). -/
theorem s32_puShiftn (a b : Word) : s32 (puShiftn a b) = roundShift (s32 a) (shiftAmount b) := by
  have ha := s32_bounds a
  unfold puShiftn
  by_cases h : shiftAmount b = 0
  · rw [h, roundShift, if_pos rfl, wrap32_s32]
  · have hlt := shiftAmount_lt b
    have hb := roundShift_bounds (n := shiftAmount b) ha.1 ha.2 (by omega) (by omega)
    exact s32_wrap32 (by omega) (by omega)

end Sys2Proof.Machine
end

