-- ==== Sys2Proof/Laws/Engine.lean ====
section
/-!
SUPPORT. Laws of the engine's steps: shifts by a constant, the history's slots, the 32-bit ring, and
the two cases of `sampleStep` (spec/41_engine.md R155 to R171).
-/
namespace Sys2Proof.Machine

/-- `shiftn` by a constant that is not 0, as an exact integer (R114). -/
theorem s32_puShiftn_shamt {a : Word} (n : BitVec 5) (h : n ≠ 0) :
    s32 (puShiftn a (shamtWord n)) = (s32 a + (2 ^ (n.toNat - 1) : Nat)) / (2 ^ n.toNat : Nat) := by
  have hn := n.isLt
  have e : shiftAmount (shamtWord n) = n.toNat := by
    rw [shiftAmount_eq, shamtWord, BitVec.toNat_setWidth]
    omega
  have h0 : ¬n.toNat = 0 := fun h0 => h (BitVec.eq_of_toNat_eq h0)
  rw [s32_puShiftn, e, roundShift, if_neg h0, asr]

/-! ### The 32-bit ring -/

theorem wrap32_add (a b : Int) : wrap32 (a + b) = wrap32 a + wrap32 b := BitVec.ofInt_add ..

theorem wrap32_mul (a b : Int) : wrap32 (a * b) = wrap32 a * wrap32 b := BitVec.ofInt_mul ..

theorem wrap32_sub (a b : Int) : wrap32 (a - b) = wrap32 a - wrap32 b := by
  apply BitVec.eq_of_toInt_eq
  simp [wrap32]

theorem wrap32_sext16 (h : Half) : wrap32 (sext16 h) = h.signExtend 32 := by
  apply BitVec.eq_of_toInt_eq
  rw [BitVec.toInt_signExtend_of_le (by omega)]
  have := sext16_bounds h
  exact s32_wrap32 (by omega) (by omega)

theorem wrap16_s32 (w : Word) : wrap16 (s32 w) = w.setWidth 16 := by
  apply BitVec.eq_of_toNat_eq
  rw [wrap16, BitVec.toNat_ofInt, BitVec.toNat_setWidth, s32, BitVec.toInt_eq_toNat_cond]
  have := w.isLt
  split <;> omega

/-! ### The envelope history -/

/-- A push writes its slot and leaves the others alone (R156). -/
theorem slot_pushSlot (hist : Word) (j : BitVec 2) (b : Byte) {k : Nat} (hk : k < 4) :
    (pushSlot hist j.toNat b).extractLsb' (8 * k) 8 =
      if k = j.toNat then b else hist.extractLsb' (8 * k) 8 := by
  have hj := j.isLt
  apply BitVec.eq_of_getLsbD_eq
  intro i hi
  have e : ∀ w : Word, (w.extractLsb' (8 * k) 8).getLsbD i = w.getLsbD (8 * k + i) := by
    intro w
    simp [hi]
  have h255 : ∀ m, BitVec.getLsbD (0xFF#32) m = decide (m < 8) := by
    intro m
    rw [show (0xFF#32) = (BitVec.allOnes 8).setWidth 32 by decide, BitVec.getLsbD_setWidth,
      BitVec.getLsbD_allOnes]
    by_cases m < 8 <;> simp_all
    omega
  have h32 : 8 * k + i < 32 := by omega
  rw [e, pushSlot, BitVec.getLsbD_or, BitVec.getLsbD_and, BitVec.getLsbD_not,
    BitVec.getLsbD_shiftLeft, BitVec.getLsbD_shiftLeft, h255, BitVec.getLsbD_setWidth]
  split
  · rename_i h
    subst h
    have h1 : 8 * j.toNat + i - 8 * j.toNat = i := by omega
    have h2 : ¬8 * j.toNat + i < 8 * j.toNat := by omega
    simp [h1, h2, h32, hi]
    intro
    omega
  · rename_i h
    rw [e]
    by_cases hlt : 8 * k + i < 8 * j.toNat
    · simp [h32, hlt]
    · have h8 : ¬8 * k + i - 8 * j.toNat < 8 := by omega
      rw [BitVec.getLsbD_of_ge b _ (by omega)]
      simp [h32, hlt, h8]

/-- The two nibbles of a byte lane (R10). -/
theorem nibbles_of_byteLane (w : Word) (k : Nat) :
    nibbleLane w (2 * k) + nibbleLane w (2 * k + 1) = byteLane w k / 16 + byteLane w k % 16 := by
  simp only [nibbleLane, byteLane, BitVec.extractLsb'_toNat, Nat.shiftRight_eq_div_pow]
  rw [show 4 * (2 * k + 1) = 8 * k + 4 by ring, show 4 * (2 * k) = 8 * k by ring, Nat.pow_add,
    ← Nat.div_div_eq_div_mul]
  generalize w.toNat / 2 ^ (8 * k) = q
  omega

/-! ### `sampleStep` -/

/-- A silent sample (R160). -/
theorem sampleStep_silent {f : FilterState} {x : Int}
    (h : envelope params (track params f (clipSample params x)).hist = 0) :
    sampleStep params f x = (silence (track params f (clipSample params x)), 0) := by
  rw [sampleStep]
  exact if_pos h

/-- A sample that is not silent (R161 to R171). -/
theorem sampleStep_loud {f : FilterState} {x : Int}
    (h : envelope params (track params f (clipSample params x)).hist ≠ 0) :
    let c := clipSample params x
    let f1 := track params f c
    sampleStep params f x =
      ({ lmsUpdate params f1 (highPass params c (sext16 f1.prev)) with prev := wrap16 c },
        gatedOutput params f1 c (envelope params f1.hist)) := by
  dsimp only
  rw [sampleStep]
  exact if_neg h

/-- An output is a 16-bit sample, whatever the Filter State (R170). -/
theorem sampleStep_output_bounds (f : FilterState) (x : Int) :
    -32768 ≤ (sampleStep params f x).2 ∧ (sampleStep params f x).2 ≤ 32767 := by
  by_cases h : envelope params (track params f (clipSample params x)).hist = 0
  · rw [sampleStep_silent h]
    dsimp only
    omega
  · rw [sampleStep_loud h]
    simp only [gatedOutput, applyGain]
    split
    · omega
    · exact lane0_bounds _

end Sys2Proof.Machine
end

