-- ==== Sys2Proof/Laws/Host.lean ====
section
/-!
SUPPORT. What a turn of the host can do at most: it leaves the whole block alone, keeps memory in
canonical form and the pc aligned (spec/10_state.md R28; spec/60_exceptions.md R236).
-/
namespace Sys2Proof.Machine

/-- The block's registers agree in two states, and the host's memory and pc stay well formed. -/
structure KeepsBlock (s t : State) : Prop where
  filter : t.filter = s.filter
  ctrl : t.ctrl = s.ctrl
  portMap : t.portMap = s.portMap
  faulted : t.faulted = s.faulted
  inputs : t.inputs = s.inputs
  memWf : s.mem.wf = true → t.mem.wf = true
  pcAligned : s.pc.toNat % 4 = 0 → t.pc.toNat % 4 = 0

theorem add_four_aligned {w : Word} (h : w.toNat % 4 = 0) : (w + 4).toNat % 4 = 0 := by
  rw [BitVec.toNat_add]
  show (w.toNat + 4) % 4294967296 % 4 = 0
  omega

theorem retire_keepsBlock (s : State) (rd : RegIdx) (y : Word) : KeepsBlock s (s.retire rd y) :=
  ⟨by simp, by simp, by simp, by simp, by simp, by simp, by
    simp only [State.retire_pc]
    exact add_four_aligned⟩

theorem exec_keepsBlock {i : Instr} {s t : State} (h : exec i s = .next t) : KeepsBlock s t := by
  cases i <;> (injection h with h; subst h; exact retire_keepsBlock _ _ _)

/-- An aligned access ends within the address space. -/
theorem aligned_fits {n : Nat} {a : Word} (hn : n ∣ addressLimit) (h0 : ¬a.toNat % n ≠ 0) :
    a.toNat + n ≤ addressLimit := by
  obtain ⟨q, hq⟩ : n ∣ a.toNat := Nat.dvd_of_mod_eq_zero (by omega)
  obtain ⟨r, hr⟩ := hn
  have hlt : a.toNat < addressLimit := a.isLt
  have hqr : q < r := by
    by_contra hc
    have := Nat.mul_le_mul_left n (Nat.le_of_not_lt hc)
    omega
  have := Nat.mul_le_mul_left n (Nat.succ_le_of_lt hqr)
  rw [Nat.mul_succ] at this
  omega

theorem storeBytes_keepsBlock {n : Nat} {a v : Word} {s t : State} (hn : n ∣ addressLimit)
    (h : storeBytes n a v s = .next t) : KeepsBlock s t := by
  rw [storeBytes] at h
  split at h
  · cases h
  · rename_i h0
    injection h with h
    subst h
    have k := hostWrite_keeps s a.toNat n v.toNat
    refine ⟨k.filter, k.ctrl, k.portMap, k.faulted, k.inputs, fun hm => wf_hostWrite hm (aligned_fits hn h0),
      fun hp => add_four_aligned (by rw [k.pc]; exact hp)⟩

theorem loadHalf_keepsBlock {ext : Half → Word} {rd : RegIdx} {a : Word} {s t : State}
    (h : loadHalf ext rd a s = .next t) : KeepsBlock s t := by
  rw [loadHalf] at h
  split at h
  · cases h
  · injection h with h
    subst h
    have k := retire_keepsBlock s.countLoad rd (ext (BitVec.ofNat 16 (s.busRead a.toNat 2)))
    exact ⟨k.filter, k.ctrl, k.portMap, k.faulted, k.inputs, k.memWf, k.pcAligned⟩

theorem branch_keepsBlock {b : Bool} {off : BitVec 13} {s t : State} (h : branch b off s = .next t) :
    KeepsBlock s t := by
  rw [branch] at h
  split at h
  · dsimp only at h
    split at h
    · cases h
    · rename_i h0
      injection h with h
      subst h
      exact ⟨rfl, rfl, rfl, rfl, rfl, id, fun _ => by rw [State.setPc_pc]; omega⟩
  · injection h with h
    subst h
    exact ⟨rfl, rfl, rfl, rfl, rfl, id, add_four_aligned⟩

theorem rv32i_keepsBlock {i : Rv32i} {s t : State} (h : i.run s = .next t) : KeepsBlock s t := by
  cases i <;> first
    | exact loadHalf_keepsBlock h
    | exact storeBytes_keepsBlock (by decide) h
    | exact branch_keepsBlock h
    | (injection h with h; subst h; exact retire_keepsBlock _ _ _)
    | (injection h with h; subst h; exact ⟨rfl, rfl, rfl, rfl, rfl, id, add_four_aligned⟩)

/-- A turn of the host leaves the block alone, an exception taken included (R28, R236). -/
theorem hostTurn_keepsBlock {s t : State} (h : hostTurn s = .next t) : KeepsBlock s t := by
  have own {w : Word} (hw : execHostWord w s = .next t) : KeepsBlock s t := by
    rw [execHostWord] at hw
    split at hw
    · exact rv32i_keepsBlock hw
    · cases hw
  rw [hostTurn] at h
  split at h
  · cases h
  · split at h
    · cases h
    · split at h
      · exact exec_keepsBlock h
      · exact own h
      · exact own h
      all_goals
        injection h with h
        subst h
        exact ⟨rfl, rfl, rfl, rfl, rfl, id, id⟩

/-! ### The host and the busy buffer (R62, R264) -/

/-- No `Xadsp` instruction touches memory (R50, R101). -/
theorem exec_mem {i : Instr} {s t : State} (h : exec i s = .next t) : t.mem = s.mem := by
  cases i <;> (injection h with h; subst h; simp)

/-- A host instruction changes no byte of memory but those it accesses. -/
theorem rv32i_bytes {i : Rv32i} {s t : State} (hw : s.mem.wf = true) (h : i.run s = .next t) (c : Nat)
    (hc : ∀ a n, i.access s = some (a, n) → ¬(a ≤ c ∧ c < a + n)) :
    readByte t.mem c = readByte s.mem c := by
  have store {n : Nat} {a v : Word} (hn : n ∣ addressLimit) (hs : storeBytes n a v s = .next t)
      (hc : ¬(a.toNat ≤ c ∧ c < a.toNat + n)) : readByte t.mem c = readByte s.mem c := by
    rw [storeBytes] at hs
    split at hs
    · cases hs
    · rename_i h0
      injection hs with hs
      subst hs
      exact readByte_hostWrite hw (aligned_fits hn h0) hc
  have load {ext : Half → Word} {rd : RegIdx} {a : Word} (hl : loadHalf ext rd a s = .next t) :
      readByte t.mem c = readByte s.mem c := by
    rw [loadHalf] at hl
    split at hl
    · cases hl
    · injection hl with hl
      subst hl
      rw [State.retire_mem, State.countLoad_mem]
  have jump {b : Bool} {off : BitVec 13} (hb : branch b off s = .next t) :
      readByte t.mem c = readByte s.mem c := by
    rw [branch] at hb
    split at hb
    · dsimp only at hb
      split at hb
      · cases hb
      · injection hb with hb
        subst hb
        rfl
    · injection hb with hb
      subst hb
      rfl
  cases i <;> first
    | exact store (by decide) h (hc _ _ rfl)
    | exact load h
    | exact jump h
    | (injection h with h; subst h; simp)

/-- A turn of the host that is not held up leaves every byte of the busy buffer as it was. -/
theorem hostTurn_offBuffer {s t : State} (hw : s.mem.wf = true) (h : hostTurn s = .next t)
    (hd : s.dataTouchesBuffer = false) (hb : s.ctrl.busy = true) {c : Nat}
    (h1 : s.ctrl.bufBase.toNat ≤ c) (h2 : c < s.ctrl.bufBase.toNat + s.ctrl.bufLen.toNat) :
    readByte t.mem c = readByte s.mem c := by
  rw [State.dataTouchesBuffer] at hd
  have own (hx : execHostWord s.fetchWord s = .next t) (hn : ∀ i, decode s.fetchWord ≠ .instr i) :
      readByte t.mem c = readByte s.mem c := by
    rw [execHostWord] at hx
    split at hx
    · rename_i i hi
      refine rv32i_bytes hw hx c fun a n ha => ?_
      split at hd
      · rename_i j hj
        exact absurd hj (hn j)
      · rw [hi] at hd
        dsimp only at hd
        rw [ha] at hd
        simp only [State.touchesBuffer, hb, Bool.true_and, decide_eq_false_iff_not] at hd
        omega
    · cases hx
  rw [hostTurn] at h
  split at h
  · cases h
  · split at h
    · cases h
    · split at h
      · rw [exec_mem h]
      · rename_i hx
        exact own h fun i hi => by rw [hi] at hx; cases hx
      · rename_i hx
        exact own h fun i hi => by rw [hi] at hx; cases hx
      all_goals
        injection h with h
        subst h
        rfl

/-- A straight line of host instructions, one at a time (R82). -/
theorem runRv32i_cons {i : Rv32i} {is : List Rv32i} {s t : State} (h : i.run s = .next t) :
    runRv32i (i :: is) s = runRv32i is t := by
  rw [runRv32i, h]

end Sys2Proof.Machine
end

