-- ==== Sys2Proof/Laws/PerInstr.lean ====
section
/-!
SUPPORT. Per instruction: its fields pass every check of R78, its word matches its row of the opcode
table, and its operation code is the row's index (spec/30_encoding.md R74, R77).
-/
namespace Sys2Proof.Laws.RowEncoding

/-- An instruction's encoding is an assigned one, in its row of the table. -/
def Statement (i : Instr) : Prop :=
  (encodeFields i).wellFormed = true ∧ i.op.toNat < 10 ∧
    encode i &&& rowMask i.op.toNat = rowMatch i.op.toNat

theorem clip16 (rd rs1 rs2 : RegIdx) : Statement (.clip16 rd rs1 rs2) :=
  ⟨rfl, by simp [Instr.op], encode_and_rowMask _⟩

theorem abs16 (rd rs1 : RegIdx) : Statement (.abs16 rd rs1) :=
  ⟨rfl, by simp [Instr.op], encode_and_rowMask _⟩

theorem abs2 (rd rs1 : RegIdx) : Statement (.abs2 rd rs1) :=
  ⟨rfl, by simp [Instr.op], encode_and_rowMask _⟩

theorem mac16 (rd rs1 rs2 : RegIdx) : Statement (.mac16 rd rs1 rs2) :=
  ⟨rfl, by simp [Instr.op], encode_and_rowMask _⟩

theorem msub16 (rd rs1 rs2 : RegIdx) : Statement (.msub16 rd rs1 rs2) :=
  ⟨rfl, by simp [Instr.op], encode_and_rowMask _⟩

theorem conv4 (rd rs1 rs2 : RegIdx) : Statement (.conv4 rd rs1 rs2) :=
  ⟨rfl, by simp [Instr.op], encode_and_rowMask _⟩

theorem conv8 (rd rs1 rs2 : RegIdx) : Statement (.conv8 rd rs1 rs2) :=
  ⟨rfl, by simp [Instr.op], encode_and_rowMask _⟩

theorem lmsstep (rd rs1 rs2 : RegIdx) : Statement (.lmsstep rd rs1 rs2) :=
  ⟨rfl, by simp [Instr.op], encode_and_rowMask _⟩

theorem cmac (rd rs1 rs2 : RegIdx) : Statement (.cmac rd rs1 rs2) :=
  ⟨rfl, by simp [Instr.op], encode_and_rowMask _⟩

theorem shiftn (rd rs1 rs2 : RegIdx) : Statement (.shiftn rd rs1 rs2) :=
  ⟨rfl, by simp [Instr.op], encode_and_rowMask _⟩

end Sys2Proof.Laws.RowEncoding
end

