-- ==== Sys2Proof/Laws/Process.lean ====
section
/-!
SUPPORT. The NSE's steps, case by case: a command accepted, the four outcomes of PROCESS's start step,
one sample, the end (spec/41_engine.md R150, R172); and how runs and streams are put together.
-/
namespace Sys2Proof.Machine

/-- The step that accepts a command executes it, on the state without the input consumed and with the
port free (R150). -/
theorem step_of_accepts {s s' : State} {p : PortInputs} (h : Accepts s s' p) :
    s.faulted = none ∧ ∃ rest, s' = { s with inputs := rest } ∧
      step s = .next (State.runCommand { s with inputs := rest, port := none } p) := by
  obtain ⟨h1, h2, h3⟩ := h
  obtain ⟨rest, rfl⟩ := h1.same
  refine ⟨h1.1, rest, rfl, ?_⟩
  rw [step_of_engineMoves h1]
  rw [State.engineStep, h2, h3]
  rfl

/-! ### PROCESS -/

theorem processStart_wraps {s : State} {b l : Word} (h : b.toNat + l.toNat > 4294967296) :
    s.processStart b l = s.markFault .addressWrap := by
  rw [State.processStart, if_pos (show b.toNat + l.toNat > 2 ^ params.addrW from h)]

theorem processStart_rejects {s : State} {b l : Word} (h : b.toNat + l.toNat ≤ 4294967296)
    (hc : cgValidate params s.mem b.toNat l.toNat = none) :
    s.processStart b l = (s.launch b l).reject := by
  rw [State.processStart,
    if_neg (show ¬b.toNat + l.toNat > 2 ^ params.addrW from Nat.not_lt.2 h)]
  dsimp only
  rw [State.launch_mem, hc]

theorem processStart_overruns {s : State} {b l : Word} {n : Nat}
    (h : b.toNat + l.toNat ≤ 4294967296) (hc : cgValidate params s.mem b.toNat l.toNat = some n)
    (hn : 44 + 2 * n > l.toNat) :
    s.processStart b l = (s.launch b l).markFault .bufferOverrun := by
  rw [State.processStart,
    if_neg (show ¬b.toNat + l.toNat > 2 ^ params.addrW from Nat.not_lt.2 h)]
  dsimp only
  rw [State.launch_mem, hc]
  exact if_pos hn

theorem processStart_accepts {s : State} {b l : Word} {n : Nat}
    (h : b.toNat + l.toNat ≤ 4294967296) (hc : cgValidate params s.mem b.toNat l.toNat = some n)
    (hn : 44 + 2 * n ≤ l.toNat) :
    s.processStart b l = (s.launch b l).acceptContainer n := by
  rw [State.processStart,
    if_neg (show ¬b.toNat + l.toNat > 2 ^ params.addrW from Nat.not_lt.2 h)]
  dsimp only
  rw [State.launch_mem, hc]
  exact if_neg (Nat.not_lt.2 hn)

/-- The sample count of an accepted container is below 2^31 (R206). -/
theorem cgValidate_lt {m : Memory} {b l n : Nat} (h : cgValidate params m b l = some n) :
    n < 2147483648 := by
  rw [cgValidate] at h
  split at h
  · cases h
  · split at h
    · injection h with h
      have := memRead_lt m (b + offPayloadLen) 4
      simp only [bytesPerSample] at h
      omega
    · cases h

theorem sampleAddress_eq (s : State) :
    s.sampleAddress = s.ctrl.bufBase.toNat + 44 + 2 * s.ctrl.sidx.toNat := by
  show s.ctrl.bufBase.toNat + (44 + 2 * s.ctrl.sidx.toNat) = _
  omega

/-- A sample of a PROCESS whose buffer fits never faults (R54, R172). -/
theorem processSample_fits {s : State} (h : s.ctrl.bufferFits)
    (hi : s.ctrl.sidx.toNat < s.ctrl.sampleCount.toNat) :
    s.processSample =
      let r := sampleStep params s.filter s.sampleIn
      { s with
        mem := memWrite s.mem s.sampleAddress 2 (wrap16 r.2).toNat
        filter := r.1
        ctrl := { s.ctrl with sampleOut := wrap16 r.2, sidx := s.ctrl.sidx + 1 } } := by
  obtain ⟨h1, h2⟩ := h
  have e1 : ¬s.sampleAt + bytesPerSample > s.ctrl.bufLen.toNat := by
    show ¬44 + 2 * s.ctrl.sidx.toNat + 2 > s.ctrl.bufLen.toNat
    omega
  have e2 : ¬s.sampleAddress + bytesPerSample > 2 ^ params.addrW := by
    rw [sampleAddress_eq]
    show ¬s.ctrl.bufBase.toNat + 44 + 2 * s.ctrl.sidx.toNat + 2 > 4294967296
    omega
  rw [State.processSample, if_neg e1, if_neg e2]
  rfl

/-- SIDX never wraps before SAMPLE_COUNT. -/
theorem sidx_succ {s : State} (hi : s.ctrl.sidx.toNat < s.ctrl.sampleCount.toNat) :
    (s.ctrl.sidx + 1).toNat = s.ctrl.sidx.toNat + 1 := by
  have := s.ctrl.sampleCount.isLt
  rw [BitVec.toNat_add]
  show (s.ctrl.sidx.toNat + 1) % 4294967296 = _
  omega

theorem engineStep_busy {s : State} (h : s.ctrl.busy = true) : s.engineStep = s.processNext := by
  rw [State.engineStep, if_pos h]

/-- A step of a PROCESS changes nothing of the host's, no input and no held command. -/
theorem processNext_keeps (s : State) :
    SameHost s s.processNext ∧ s.processNext.inputs = s.inputs ∧ s.processNext.port = s.port := by
  rw [State.processNext, State.processSample]
  split
  · split
    · exact ⟨⟨rfl, rfl, rfl, rfl, rfl, rfl⟩, rfl, rfl⟩
    · split <;> exact ⟨⟨rfl, rfl, rfl, rfl, rfl, rfl⟩, rfl, rfl⟩
  · exact ⟨⟨rfl, rfl, rfl, rfl, rfl, rfl⟩, rfl, rfl⟩

/-- A 16-bit value written reads back. -/
theorem half_read_back {m : Memory} (h : m.wf = true) {a : Nat} (ha : a + 2 ≤ 4294967296) (v : Half) :
    BitVec.ofNat 16 (memRead (memWrite m a 2 v.toNat) a 2) = v := by
  rw [memRead_memWrite h ha]
  apply BitVec.eq_of_toNat_eq
  have := v.isLt
  rw [BitVec.toNat_ofNat]
  omega

/-! ### Runs -/

theorem run_succ_of_next {k : Nat} {s t : State} (h : step s = .next t) :
    Host.Core.run core (k + 1) s = Host.Core.run core k t := by
  have : core.step s = .next t := h
  simp only [Host.Core.run, this]

/-- A run of `k + j` steps is `j` steps from where `k` steps end. -/
theorem run_add {k j : Nat} {s t : State} (h : Host.Core.run core k s = .next t) :
    Host.Core.run core (k + j) s = Host.Core.run core j t := by
  induction k generalizing s with
  | zero =>
    cases h
    rw [Nat.zero_add]
  | succ k ih =>
    simp only [Host.Core.run] at h
    split at h
    · rename_i u hu
      rw [show k + 1 + j = k + j + 1 by omega, run_succ_of_next hu]
      exact ih h
    · cases h
    · cases h

/-! ### Streams -/

theorem length_streamOutputs (f : FilterState) (xs : List Int) :
    (streamOutputs f xs).length = xs.length := by
  induction xs generalizing f with
  | nil => rfl
  | cons x xs ih => simp [streamOutputs, ih]

theorem streamOutputs_append (f : FilterState) (xs ys : List Int) :
    streamOutputs f (xs ++ ys) = streamOutputs f xs ++ streamOutputs (streamFilter f xs) ys := by
  induction xs generalizing f with
  | nil => rfl
  | cons x xs ih => simp [streamOutputs, streamFilter, ih]

theorem streamFilter_append (f : FilterState) (xs ys : List Int) :
    streamFilter f (xs ++ ys) = streamFilter (streamFilter f xs) ys := by
  induction xs generalizing f with
  | nil => rfl
  | cons x xs ih => simp [streamFilter, ih]

end Sys2Proof.Machine
end

