-- ==== Sys2Proof/Laws/Steps.lean ====
section
/-!
SUPPORT. What a step that is not the NSE's can do: a hardware reset, or nothing to the block and to the
busy buffer (spec/10_state.md R28; spec/20_memory.md R62; spec/70_reset_and_hazards.md R260, R264).
-/
namespace Sys2Proof.Machine

/-- What every step of the host or its environment keeps, but for a hardware reset. -/
structure HostStep (s t : State) : Prop where
  filter : t.filter = s.filter
  ctrl : t.ctrl = s.ctrl
  faulted : t.faulted = s.faulted
  portMap : t.portMap = s.portMap
  memWf : s.mem.wf = true → t.mem.wf = true
  pcAligned : s.pc.toNat % 4 = 0 → t.pc.toNat % 4 = 0
  offBuffer : s.mem.wf = true → s.ctrl.busy = true → ∀ a, s.ctrl.bufBase.toNat ≤ a →
    a < s.ctrl.bufBase.toNat + s.ctrl.bufLen.toNat → readByte t.mem a = readByte s.mem a

/-- A target with its two low bits cleared is aligned. -/
theorem cleared_aligned (v : Word) : (v &&& 0xFFFFFFFC#32).toNat % 4 = 0 := by
  rw [BitVec.toNat_and, show (4 : Nat) = 2 ^ 2 from rfl, Nat.and_mod_two_pow]
  simp

/-- A step that is not the NSE's is a hardware reset or a step of the host. -/
theorem step_not_engine {s t : State} (h : step s = .next t) (hn : ¬∃ s', EngineMoves s s') :
    (∃ rest, s.inputs = .reset :: rest ∧ t = State.blockReset { s with inputs := rest }) ∨
      HostStep s t := by
  obtain ⟨hf, ⟨s', h1, -⟩ | ⟨rest, h1, hb⟩ | ⟨i, rest, hi, hw, n1, n2, h3⟩⟩ := step_cases h
  · exact absurd ⟨s', h1⟩ hn
  · have k := hostTurn_keepsBlock h1
    refine .inr ⟨k.filter, k.ctrl, k.faulted, k.portMap, k.memWf, k.pcAligned, ?_⟩
    intro hm hbusy a ha ha'
    refine hostTurn_offBuffer (s := { s with inputs := rest }) hm h1 ?_ hbusy ha ha'
    rcases hb with hb | hb
    · simp [State.engineReady, hbusy] at hb
    · simp only [State.hostBlocked, Bool.or_eq_false_iff] at hb
      exact hb.2
  · cases i with
    | instr => exact absurd rfl n1
    | engine => exact absurd rfl n2
    | reset =>
      injection h3 with h3
      exact .inl ⟨rest, hi, h3.symm⟩
    | present p =>
      injection h3 with h3
      subst h3
      exact .inr ⟨rfl, rfl, rfl, rfl, id, id, fun _ _ _ _ _ => rfl⟩
    | store a b =>
      injection h3 with h3
      subst h3
      have k := hostWrite_keeps { s with inputs := rest } a.toNat 1 b.toNat
      refine .inr ⟨k.filter, k.ctrl, k.faulted, k.portMap, fun hm => ?_, fun hp => ?_,
        fun hm hbusy c h1 h2 => ?_⟩
      · exact wf_hostWrite (s := { s with inputs := rest }) hm (addressLimit_word a)
      · rw [State.hostStore, k.pc]
        exact hp
      · refine readByte_hostWrite (s := { s with inputs := rest }) hm (addressLimit_word a) ?_
        have hb : ¬s.touchesBuffer a.toNat 1 = true := fun e => by simp [State.mustWait, e] at hw
        by_contra hc
        exact hb (touchesBuffer_iff.mpr ⟨hbusy, 0, by omega⟩)
    | own rd v target =>
      injection h3 with h3
      subst h3
      refine .inr ⟨by simp [State.hostOwn], by simp [State.hostOwn], by simp [State.hostOwn],
        by simp [State.hostOwn], fun hm => by simpa [State.hostOwn] using hm,
        fun _ => cleared_aligned target, fun _ _ _ _ _ => by simp [State.hostOwn]⟩

end Sys2Proof.Machine
end

