-- ==== Sys2Proof/Laws/Xadsp.lean ====
section
/-!
SUPPORT. The common step of an `Xadsp` instruction: what it changes, and nothing else (R101).
-/
namespace Sys2Proof.Machine

/-- The end of the common step is what the statements say of it. -/
theorem retires_retire (s : State) (rd : RegIdx) (y : Word) : Retires s (s.retire rd y) rd y where
  pc := by simp
  dest := by
    rw [State.readReg_retire]
    split <;> simp
  others r hr := by
    rw [State.readReg_retire, if_neg hr]
    split
    · rename_i h
      rw [h]
      rfl
    · rfl
  bytes a := by simp
  trap := by simp
  filter := by simp
  ctrl := by simp
  port := by simp
  driven := by simp
  portMap := by simp
  draws := by simp
  faulted := by simp
  inputs := by simp

/-- A binary operation completes in every state. -/
theorem binaryStep_completes (f : Word → Word → Word) (rd rs1 rs2 : RegIdx) (s : State) :
    ∃ t, binaryStep f rd rs1 rs2 s = .next t ∧ Retires s t rd (f (s.readReg rs1) (s.readReg rs2)) :=
  ⟨_, rfl, retires_retire _ _ _⟩

/-- A unary operation completes in every state. -/
theorem unaryStep_completes (f : Word → Word) (rd rs1 : RegIdx) (s : State) :
    ∃ t, unaryStep f rd rs1 s = .next t ∧ Retires s t rd (f (s.readReg rs1)) :=
  ⟨_, rfl, retires_retire _ _ _⟩

/-- Register 0 takes no result: the common step only advances the pc (R79). -/
theorem retire_x0 (s : State) (y : Word) : s.retire 0 y = { s with pc := s.pc + 4 } := rfl

end Sys2Proof.Machine
end

