-- ==== Sys2Proof/Tests/Slice0.lean ====
section
/-!
SUPPORT. Tests: the checks of WellFormed refuse, words written out from spec/30_encoding.md decode, one
step gives the values of spec/95_test_vectors.md; then, for each statement with hypotheses, a state and
operands that meet them (test_witness_…). Every expected value is from the spec's text.
-/
namespace Sys2Proof.Tests

open Sys2Proof Sys2Proof.Machine

/-! ### Small states -/

/-- After reset, with `a` in x10 and `b` in x11. -/
def operands (a b : Word) : State := (State.reset.writeReg 10 a).writeReg 11 b

/-- Something of the next state, if there is one. -/
def after {α : Type} (o : Outcome) (f : State → α) : Option α :=
  match o with
  | .next t => some (f t)
  | .fault _ => none
  | .refused _ => none

/-- x12 of the next state. -/
def x12 (o : Outcome) : Option Word := after o fun t => t.readReg 12

/-- Memory with the given bytes from address `a` up. -/
def cellsAt (a : Nat) : List Nat → Memory
  | [] => []
  | b :: bs => if b = 0 then cellsAt (a + 1) bs else (a, BitVec.ofNat 8 b) :: cellsAt (a + 1) bs

/-- Container G1 of 95_test_vectors.md, with payload length `len` and the given payload bytes. -/
def containerBytes (len : Nat) (payload : List Nat) : List Nat :=
  [0x52, 0x49, 0x46, 0x46, 0x2C, 0, 0, 0, 0x57, 0x41, 0x56, 0x45, 0x66, 0x6D, 0x74, 0x20]
    ++ [0x10, 0, 0, 0, 1, 0, 1, 0, 0x80, 0x3E, 0, 0, 0, 0x7D, 0, 0]
    ++ [2, 0, 0x10, 0, 0x64, 0x61, 0x74, 0x61, len, 0, 0, 0] ++ payload

/-- G1 at address 4096. -/
def g1 : Memory := cellsAt 4096 (containerBytes 8 [0x64, 0, 0x9C, 0xFF, 0x64, 0, 0x9C, 0xFF])

/-- G2 (`RIFX`) at address 4096. -/
def g2 : Memory := (4096, 0x52#8) :: (4097, 0x49#8) :: (4098, 0x46#8) :: (4099, 0x58#8) :: g1.drop 4

/-- G12 (payload length 10 in 52 bytes) at address 4096. -/
def g12 : Memory := cellsAt 4096 (containerBytes 10 [0x64, 0, 0x9C, 0xFF, 0x64, 0, 0x9C, 0xFF])

/-- A command on the 52-byte buffer at 4096. -/
def command (cmd : BitVec 2) (x : Half) : PortInputs := ⟨cmd, x, 4096, 52⟩

/-- After reset, with a command at the port and memory `m`. -/
def waiting (p : PortInputs) (m : Memory) : State := { State.reset with port := some p, mem := m }

/-- A PROCESS of G1 in progress, with `k` samples done of `n`. -/
def running (n k : Word) : State :=
  { State.reset with
    mem := g1
    ctrl := { Control.zero with
      busy := true, sampleCount := n, sidx := k, bufBase := 4096, bufLen := 52 } }

/-- A platform that places CMD, SAMPLE_IN, BUSY and SAMPLE_OUT from address 512 up. -/
def placed : List Config.PortCell :=
  [⟨512, .cmd, 0⟩, ⟨514, .sampleIn, 0⟩, ⟨515, .sampleIn, 1⟩, ⟨516, .busy, 0⟩, ⟨518, .sampleOut, 0⟩,
    ⟨519, .sampleOut, 1⟩]

/-- The NSE has moved `k` times. -/
def moved (s : State) : Nat → State
  | 0 => s
  | k + 1 => (moved s k).engineStep

/-- After reset, with an instruction word at address 0. -/
def fetching (w : Nat) : State := State.reset.withFetchWord 32 w

/-! ### WellFormed refuses (R78) -/

theorem test_wellFormed_accepts : (Fields.mk 0 11 10 0 12 0b0001011#7).wellFormed = true := by decide
theorem test_wellFormed_refuses_opcode :
    (Fields.mk 0 11 10 0 12 0b0010011#7).wellFormed = false := by decide
theorem test_wellFormed_refuses_funct3 :
    (Fields.mk 0 11 10 1 12 0b0001011#7).wellFormed = false := by decide
theorem test_wellFormed_refuses_funct7 :
    (Fields.mk 10 11 10 0 12 0b0001011#7).wellFormed = false := by decide
theorem test_wellFormed_refuses_unary_rs2 :
    (Fields.mk 1 1 10 0 12 0b0001011#7).wellFormed = false := by decide

/-! ### Decoding: words of the programs P1, P2 and P4, bit by bit (R71, R74) -/

theorem test_decode_clip16 :
    decode (0b0000000#7 ++ 11#5 ++ 10#5 ++ 0b000#3 ++ 12#5 ++ 0b0001011#7) = .instr (.clip16 12 10 11) := by
  decide
theorem test_decode_abs16 :
    decode (0b0000001#7 ++ 0#5 ++ 12#5 ++ 0b000#3 ++ 13#5 ++ 0b0001011#7) = .instr (.abs16 13 12) := by
  decide
theorem test_decode_abs2 : decode 0x0406070B#32 = .instr (.abs2 14 12) := by decide
theorem test_decode_mac16 : decode 0x06F5080B#32 = .instr (.mac16 16 10 15) := by decide
theorem test_decode_msub16 : decode 0x08F5088B#32 = .instr (.msub16 17 10 15) := by decide
theorem test_decode_conv4 : decode 0x0AB5060B#32 = .instr (.conv4 12 10 11) := by decide
theorem test_decode_conv8 : decode 0x0CE6878B#32 = .instr (.conv8 15 13 14) := by decide
theorem test_decode_lmsstep : decode 0x0F18028B#32 = .instr (.lmsstep 5 16 17) := by decide
theorem test_decode_cmac : decode 0x1073040B#32 = .instr (.cmac 8 6 7) := by decide
theorem test_decode_shiftn : decode 0x1257030B#32 = .instr (.shiftn 6 14 5) := by decide
theorem test_encode_program_words :
    encode (.conv4 12 10 11) = 0x0AB5060B#32 ∧ encode (.abs16 13 12) = 0x0206068B#32 ∧
      encode (.cmac 8 6 7) = 0x1073040B#32 := by decide
/-- The match and mask columns of R74's table come out of ENC_*. -/
theorem test_row_columns :
    (List.range 10).map rowMatch =
        [0x0000000B#32, 0x0200000B#32, 0x0400000B#32, 0x0600000B#32, 0x0800000B#32, 0x0A00000B#32,
          0x0C00000B#32, 0x0E00000B#32, 0x1000000B#32, 0x1200000B#32] ∧
      (List.range 10).map rowMask =
        [0xFE00707F#32, 0xFFF0707F#32, 0xFFF0707F#32, 0xFE00707F#32, 0xFE00707F#32, 0xFE00707F#32,
          0xFE00707F#32, 0xFE00707F#32, 0xFE00707F#32, 0xFE00707F#32] := by decide
/-- The parameters' widths are the model's types (R6). -/
theorem test_params_fit : params.fitsTypes = true := by decide
theorem test_decode_reserved :
    isReserved 0x1400000B#32 = true ∧ isReserved 0xFE00000B#32 = true ∧
      isReserved 0x0000100B#32 = true ∧ isReserved 0x0210000B#32 = true ∧
      isReserved 0x0430000B#32 = true ∧ isReserved 0x4B050513#32 = false := by decide
theorem test_decode_too_short : decodeBytes [0x0B#8, 0x06#8, 0xB5#8] = .rejected .tooShort := by decide
/-- Words of the programs P2 and P3, as the spec lists them. -/
theorem test_decode_host_words :
    decodeRv32i 0xF4060613#32 = some (.addi 12 12 0xF40#12) ∧
      decodeRv32i 0x00002637#32 = some (.lui 12 2#20) ∧
      decodeRv32i 0x408303B3#32 = some (.sub 7 6 8) ∧
      decodeRv32i 0x00055283#32 = some (.lhu 5 10 0#12) ∧
      decodeRv32i 0x0085A023#32 = some (.sw 11 8 0#12) ∧
      decodeRv32i 0xFE0592E3#32 = some (.bne 11 0 0x1FE4#13) ∧
      decodeRv32i 0x00804463#32 = some (.blt 0 8 8#13) := by decide
theorem test_decodeTableWord : decodeTableWord 32 0x0200000B = some (.abs16 0 0) := by decide

/-! ### The ten operations (95_test_vectors.md, "Primitive operations") -/

theorem test_clip16_both_lanes :
    x12 (exec (.clip16 12 10 11) (operands 0xEC7804B0#32 0x000003E8#32)) = some 0xFC1803E8#32 := by
  decide
theorem test_clip16_minimum :
    x12 (exec (.clip16 12 10 11) (operands 0x7FFF8000#32 0x00007FFF#32)) = some 0x7FFF8001#32 := by
  decide
theorem test_abs16_minimum :
    x12 (exec (.abs16 12 10) (operands 0x8000FFFB#32 0#32)) = some 0x7FFF0005#32 := by decide
theorem test_abs16_carryless :
    x12 (exec (.abs16 12 10) (operands 0xFFFF0000#32 0#32)) = some 0x00010000#32 := by decide
theorem test_abs2_sum :
    x12 (exec (.abs2 12 10) (operands 0xFFFC0003#32 0#32)) = some 0x00000019#32 := by decide
theorem test_abs2_top :
    x12 (exec (.abs2 12 10) (operands 0x80008000#32 0#32)) = some 0x80000000#32 := by decide
theorem test_mac16_wraps :
    x12 (exec (.mac16 12 10 11) (operands 0x80008000#32 0x80008000#32)) = some 0x80000000#32 := by
  decide
theorem test_mac16_lanes :
    x12 (exec (.mac16 12 10 11) (operands 0x80007FFF#32 0x7FFF8000#32)) = some 0x80010000#32 := by
  decide
theorem test_msub16_order :
    x12 (exec (.msub16 12 10 11) (operands 0x00050003#32 0x00050003#32)) = some 0xFFFFFFF0#32 := by
  decide
theorem test_msub16_top :
    x12 (exec (.msub16 12 10 11) (operands 0x80008000#32 0x7FFF8000#32)) = some 0x7FFF8000#32 := by
  decide
theorem test_conv4_unsigned :
    x12 (exec (.conv4 12 10 11) (operands 0x80000001#32 0x02000003#32)) = some 0x00000103#32 := by
  decide
theorem test_conv8_sum :
    x12 (exec (.conv8 12 10 11) (operands 0x12345678#32 0x11111111#32)) = some 0x00000024#32 := by
  decide
theorem test_lmsstep_trace :
    x12 (exec (.lmsstep 12 10 11) (operands 0x0FA0E0C0#32 0xE17CE17C#32)) = some 0x01DCCE80#32 := by
  decide
theorem test_cmac_lanes :
    x12 (exec (.cmac 12 10 11) (operands 0x00004000#32 0xE0006000#32)) = some 0xF0003000#32 := by
  decide
theorem test_cmac_saturates :
    x12 (exec (.cmac 12 10 11) (operands 0x80008000#32 0x7FFF8000#32)) = some 0x00017FFF#32 := by
  decide
theorem test_shiftn_tie :
    x12 (exec (.shiftn 12 10 11) (operands 0xFFFFFFFB#32 0x00000001#32)) = some 0xFFFFFFFE#32 := by
  decide
theorem test_shiftn_amount_35 :
    x12 (exec (.shiftn 12 10 11) (operands 0x00003039#32 0x00000023#32)) = some 0x00000607#32 := by
  decide
/-- The source is the destination too: the old value is read (R101). -/
theorem test_source_is_destination :
    after (exec (.msub16 10 10 10) (operands 0x00050003#32 0#32)) (fun t => (t.readReg 10, t.pc)) =
      some (0xFFFFFFF0#32, 4#32) := by decide

/-! ### One step of the machine -/

/-- The placed word runs as the first instruction after reset (P1, 0x00C). -/
theorem test_step_runs_placed_word :
    x12 (step ((operands 0xEC7804B0#32 0x000003E8#32).withFetchWord 32 0x00B5060B)) =
      some 0xFC1803E8#32 := by decide
/-- A reserved word is handed to the host's trap; the pc stays (R78, R231). -/
theorem test_step_reserved_word :
    after (step (fetching 0x0210000B)) (fun t => t.trap) = some (some 0x0210000B#32) ∧
      after (step (fetching 0x0210000B)) (fun t => t.pc) = some 0#32 := by decide
/-- A host instruction of P1 runs: `addi a1, zero, 1000` (log entry 10). -/
theorem test_step_host_addi :
    after (step (fetching 0x3E800593)) (fun t => t.readReg 11) = some 0x000003E8#32 := by decide
/-- N1: STEP 4000 right after reset. -/
theorem test_step_command :
    after (step (waiting (command 2 4000#16) []))
      (fun t => (t.ctrl.sampleOut, t.filter.noise, t.filter.hist, t.filter.hidx, t.filter.d1)) =
      some (4000#16, 250000#32, 0x0000000F#32, 1#2, 4000#32) := by decide +kernel
/-- N3: a rejected container. -/
theorem test_process_rejects_rifx :
    after (step (waiting (command 3 0) g2)) (fun t => t.ctrl.engStatus) = some .rejected ∧
      after (step (waiting (command 3 0) g2)) (fun t => t.mem) = some g2 := by decide
/-- A host store to CMD presents the command with the inputs driven before (R150, R241). -/
theorem test_port_store_presents :
    after (step { State.reset with
        portMap := placed, driven := { PortInputs.zero with sampleIn := 4000 }
        inputs := [.store 512 2] }) (fun t => (t.port, t.mem)) =
      some (some ⟨2, 4000#16, 0, 0⟩, []) := by decide
/-- A host `sh` drives both bytes of SAMPLE_IN and reaches no memory (`sh t1, 0(a0)`, P2). -/
theorem test_port_store_half :
    after (step { (State.reset.writeReg 10 514#32).writeReg 6 0xFFFFE0C0#32 with
        portMap := placed, mem := memWrite [] 0 4 0x00651023 })
      (fun t => (t.driven.sampleIn, t.port, readByte t.mem 514)) =
      some (0xE0C0#16, none, 0) := by decide
/-- A host `lhu` from where SAMPLE_OUT is placed reads it (`lhu t0, 0(a0)`, P2). -/
theorem test_port_load :
    after (step { State.reset.writeReg 10 518#32 with
        portMap := placed, mem := memWrite [] 0 4 0x00055283
        ctrl := { Control.zero with sampleOut := 0x1770#16 } }) (fun t => t.readReg 5) =
      some 0x1770#32 := by decide
/-- Where no register is placed, `lhu` reads memory. -/
theorem test_memory_load :
    after (step { State.reset.writeReg 10 518#32 with
        mem := memWrite (memWrite [] 0 4 0x00055283) 518 2 0x1770 }) (fun t => t.readReg 5) =
      some 0x1770#32 := by decide
/-- A host with its pc in the busy buffer presents no command (R65, R264). -/
theorem test_present_in_buffer_waits :
    after (step { running 4 0 with pc := 4096#32, inputs := [.present (command 1 0)] })
      (fun t => (t.port, t.ctrl.sidx)) = some (none, 1#32) := by decide
/-- A host with its pc in the busy buffer stores nothing outside the buffer either (R65, R264). -/
theorem test_store_in_buffer_waits :
    after (step { running 4 0 with pc := 4096#32, inputs := [.store 8192 7] })
      (fun t => (t.ctrl.sidx, t.inputs)) = some (1#32, [.store 8192 7]) := by decide
/-- The host's own code at a pc in the busy buffer waits (R65, R264). -/
theorem test_own_code_waits :
    after (step { running 4 0 with pc := 4096#32, inputs := [.own 1 5 0] })
      (fun t => (t.readReg 1, t.ctrl.sidx, t.inputs)) =
      some (0, 1, [.own 1 5 0]) := by decide
/-- G1's start step counts its four samples (R172, R206). -/
theorem test_process_accepts_g1 :
    after (step (waiting (command 3 0) g1)) (fun t => (t.ctrl.busy, t.ctrl.sampleCount)) =
      some (true, 4#32) := by decide
/-- G1's first sample, 100, is silent: its two bytes become 0 (trace V2). -/
theorem test_process_first_sample :
    after (step (running 4 0))
      (fun t => (memRead t.mem 4140 2, memRead t.mem 4142 2, t.ctrl.sidx, t.filter.noise)) =
      some (0, 0xFF9C, 1#32, 156#32) := by decide +kernel
/-- N7: one byte past the address space. -/
theorem test_process_wraps :
    after (step (waiting ⟨3, 0, 0xFFFFFFF0#32, 0x11#32⟩ [])) (fun t => t.faulted) =
      some (some .addressWrap) := by decide
/-- N6: exactly to the end of the address space, but too short for a header. -/
theorem test_process_short :
    after (step (waiting ⟨3, 0, 0xFFFFFFF0#32, 0x10#32⟩ [])) (fun t => t.ctrl.engStatus) =
      some .rejected := by decide

/-! ### `sampleStep` (traces V3, V5, V6, V7) -/

/-- V3, sample 2: the LMS path. -/
theorem test_sample_lms :
    sampleStep params ⟨496094, 0x0F0F#32, 2, BitVec.ofInt 16 (-4000), BitVec.ofInt 32 (-8000), 4000,
        BitVec.ofInt 32 (-7812), BitVec.ofInt 32 (-7812)⟩ 4000 =
      (⟨738343, 0x0F0F0F#32, 3, 4000, 8000, BitVec.ofInt 32 (-8000), 190405, 190405⟩, 6000) := by
  decide
/-- V5, sample 3: the compression cap. -/
theorem test_sample_cap :
    sampleStep params ⟨12385816, 0x3F3F3F#32, 3, 16383, 0, 0, 0, 0⟩ 16383 =
      (⟨16386080, 0x3F3F3F3F#32, 0, 16383, 0, 0, 0, 0⟩, 5168) := by decide
/-- V6, sample 1: a wide step, with the wrapped coefficient. -/
theorem test_sample_wide :
    sampleStep params ⟨4193792, 0x3F#32, 1, BitVec.ofInt 16 (-16383), BitVec.ofInt 32 (-16383), 0, 0, 0⟩
        32767 =
      (⟨8322056, 0x3F3F#32, 2, 16383, 32766, BitVec.ofInt 32 (-16383), BitVec.ofInt 32 (-131056),
        BitVec.ofInt 32 (-131056)⟩, 24573) := by decide
/-- V7, sample 6: silence resets the history but not NOISE. -/
theorem test_sample_silence :
    sampleStep params ⟨704271, 0x0F0000#32, 2, 0, 0, 0, BitVec.ofInt 32 (-37549),
        BitVec.ofInt 32 (-37549)⟩ 0 =
      (⟨693267, 0#32, 3, 0, 0, 0, 0, 0⟩, 0) := by decide

/-! ### Witnesses: states and operands that meet a statement's hypotheses -/

/-- `decode w = .instr i`. -/
theorem test_witness_encodeOfDecode : decode 0x1257030B#32 = .instr (.shiftn 6 14 5) := by decide

/-- A word in two rows' masks at once: only its own row matches. -/
theorem test_witness_tableRows :
    0x0206068B#32 &&& rowMask 1 = rowMatch 1 ∧ 0x0206068B#32 &&& rowMask 0 ≠ rowMatch 0 := by decide

/-- A word of each case of R80's function. -/
theorem test_witness_decoderCases :
    (0x4B050513#32).extractLsb' 0 7 ≠ 0b0001011#7 ∧ (0x0000100B#32).extractLsb' 12 3 ≠ 0#3 ∧
      10 ≤ ((0x1400000B#32).extractLsb' 25 7).toNat ∧
      ((0x0430000B#32).extractLsb' 25 7).toNat = 2 ∧ (0x0430000B#32).extractLsb' 20 5 ≠ 0#5 ∧
      ((0x1257030B#32).extractLsb' 25 7).toNat = 9 := by decide

/-- The host's turn without inputs, on a reserved word and on an instruction. -/
theorem test_witness_hostFetches :
    HostFetches (fetching 0x1400000B) (fetching 0x1400000B) 0x1400000B#32 ∧
      isReserved 0x1400000B#32 = true ∧
      HostFetches (fetching 0x0206068B) (fetching 0x0206068B) 0x0206068B#32 ∧
      decode 0x0206068B#32 = .instr (.abs16 13 12) := by
  refine ⟨⟨rfl, .inl ⟨rfl, rfl, rfl⟩, rfl, rfl, by decide⟩, by decide,
    ⟨rfl, .inl ⟨rfl, rfl, rfl⟩, rfl, rfl, by decide⟩, by decide⟩

/-- The host's turn named by an input, while a PROCESS runs on another buffer. -/
theorem test_witness_hostFetches_input :
    HostFetches
      { running 4 0 with mem := memWrite g1 0 4 0x0206068B, inputs := [.instr] }
      { running 4 0 with mem := memWrite g1 0 4 0x0206068B, inputs := [] } 0x0206068B#32 :=
  ⟨rfl, .inr ⟨[], rfl, by decide, rfl⟩, rfl, rfl, by decide⟩

/-- Limits 0, 1000 and 2^31 - 1 are not negative; -1 is. -/
theorem test_witness_clip16_limits :
    0 ≤ s32 ((operands 0xEC7804B0#32 0#32).readReg 11) ∧
      0 ≤ s32 ((operands 0xEC7804B0#32 0x000003E8#32).readReg 11) ∧
      0 ≤ s32 ((operands 0xEC7804B0#32 0x7FFFFFFF#32).readReg 11) ∧
      s32 ((operands 0xEC7804B0#32 0xFFFFFFFF#32).readReg 11) < 0 := by decide

/-- Both cases of the dot product, and both of `shiftn` at their boundaries. -/
theorem test_witness_cases :
    (operands 0x80008000#32 0x80008000#32).readReg 10 = 0x80008000#32 ∧
      (operands 0x80008000#32 0x80008001#32).readReg 11 ≠ 0x80008000#32 ∧
      ((operands 0#32 0x20#32).readReg 11).toNat % 32 = 0 ∧
      ((operands 0#32 0x3F#32).readReg 11).toNat % 32 = 31 := by decide

theorem test_witness_reserved_codes : 10 ≤ (10 : BitVec 4).toNat ∧ 10 ≤ (15 : BitVec 4).toNat := by decide

theorem test_witness_x0 : (Instr.cmac 0 6 7).rd = 0 := rfl

/-- The ranges of lanes and of the clip's limit, at their ends. -/
theorem test_witness_lane_ranges :
    (-32768 : Int) ≤ -32768 ∧ (-32768 : Int) ≤ 32767 ∧ (32767 : Int) ≤ 32767 ∧ (0 : Int) ≤ 0 ∧
      (0 : Int) ≤ 32766 ∧ (32766 : Int) ≤ 32766 := by decide

/-- A wide access that ends with the last byte of the address space. -/
theorem test_witness_wide_access :
    Memory.wf g1 = true ∧ 4294967292 + 4 ≤ 4294967296 ∧ Memory.wf [] = true := by decide

/-- The estimate and the energy at both ends of their range. -/
theorem test_witness_noise :
    0 ≤ s32 0#32 ∧ s32 0x40000000#32 ≤ 1073741824 ∧ u32 268402689#32 ≤ 1073741824 ∧
      u32 0x40000000#32 ≤ 1073741824 ∧ (s32 250000#32 ≤ u32 16000000#32) := by decide

/-- A silent sample and one that is not, from the start of a stream. -/
theorem test_witness_silence :
    envelope params (track params FilterState.zero (clipSample params 100)).hist = 0 ∧
      envelope params (track params FilterState.zero (clipSample params 4000)).hist ≠ 0 := by decide

/-- The ranges of the engine's samples, slots, mixes and gains, at their ends. -/
theorem test_witness_engine_ranges :
    (-16383 : Int) ≤ -16383 ∧ (-16383 : Int) ≤ 16383 ∧ (0 : Int) ≤ 32767 ∧ (3 : Nat) < 4 ∧
      (32767 : Int) ≤ 32767 := by decide

theorem test_witness_filter_inv : FilterState.zero.Inv :=
  ⟨rfl, by decide, by decide, by decide, by decide, by decide⟩

theorem test_witness_constant_stream :
    256 ≤ |(256 : Int)| ∧ |(-32767 : Int)| ≤ 32767 ∧ 44 ≤ 44 := by decide

/-- Any command at the port of an idle NSE is accepted in its turn. -/
theorem test_witness_accepts (p : PortInputs) (m : Memory) :
    Accepts (waiting p m) (waiting p m) p ∧ (waiting p m).inputs = [] :=
  ⟨⟨⟨rfl, .inl ⟨rfl, rfl, rfl⟩⟩, rfl, rfl⟩, rfl⟩

/-- The same when the NSE's turn is an input, and when the host must wait. -/
theorem test_witness_accepts_input :
    Accepts { waiting (command 1 0) [] with inputs := [.engine] } (waiting (command 1 0) [])
        (command 1 0) ∧
      Accepts { waiting (command 1 0) [] with inputs := [.instr] }
        { waiting (command 1 0) [] with inputs := [.instr] } (command 1 0) :=
  ⟨⟨⟨rfl, .inr (.inl ⟨[], rfl, rfl⟩)⟩, rfl, rfl⟩,
    ⟨⟨rfl, .inr (.inr ⟨.instr, [], rfl, rfl, rfl⟩)⟩, rfl, rfl⟩⟩

theorem test_witness_codes :
    (command 0 0).cmd = 0 ∧ (command 1 0).cmd = 1 ∧ (command 2 4000#16).cmd = 2 ∧
      (command 3 0).cmd = 3 := by decide

/-- The wrapping buffer of N7. -/
theorem test_witness_wraps :
    (PortInputs.mk 3 0 0xFFFFFFF0#32 0x11#32).bufBase.toNat
      + (PortInputs.mk 3 0 0xFFFFFFF0#32 0x11#32).bufLen.toNat > 4294967296 := by decide

/-- The overrunning container G12. -/
theorem test_witness_overruns :
    cgValidate params (waiting (command 3 0) g12).mem (command 3 0).bufBase.toNat
        (command 3 0).bufLen.toNat = some 5 ∧
      44 + 2 * 5 > (command 3 0).bufLen.toNat ∧
      (command 3 0).bufBase.toNat + (command 3 0).bufLen.toNat ≤ 4294967296 := by decide

/-- The rejected container G2. -/
theorem test_witness_rejects :
    cgValidate params (waiting (command 3 0) g2).mem (command 3 0).bufBase.toNat
      (command 3 0).bufLen.toNat = none := by decide

/-- The accepted container G1, whose payload ends with its buffer. -/
theorem test_witness_accepts_g1 :
    (waiting (command 3 0) g1).mem.wf = true ∧
      cgValidate params (waiting (command 3 0) g1).mem (command 3 0).bufBase.toNat
        (command 3 0).bufLen.toNat = some 4 ∧
      44 + 2 * 4 ≤ (command 3 0).bufLen.toNat := by decide

/-- A PROCESS in progress meets the invariant, with a sample to do and with none left. -/
theorem test_witness_running (k : Word) (hk : k.toNat ≤ 4) :
    Invariant (running 4 k) ∧ EngineMoves (running 4 k) (running 4 k) ∧
      (running 4 k).ctrl.busy = true :=
  ⟨⟨(by decide : g1.wf = true), rfl, test_witness_filter_inv,
      ⟨hk, by simp [running], fun h => by cases h⟩, fun _ _ => ⟨by simp [running], by simp [running]⟩⟩,
    ⟨rfl, .inl ⟨rfl, rfl, rfl⟩⟩, rfl⟩

theorem test_witness_samples :
    (running 4 3).ctrl.sidx.toNat < (running 4 3).ctrl.sampleCount.toNat ∧
      (running 4 4).ctrl.sampleCount.toNat ≤ (running 4 4).ctrl.sidx.toNat ∧
      (running 0 0).ctrl.sampleCount.toNat ≤ (running 0 0).ctrl.sidx.toNat := by decide

/-- N8: a STEP held while a PROCESS runs, with the host's next instruction behind it. -/
theorem test_witness_held :
    let s := { running 4 0 with port := some (command 2 4000#16), inputs := [.instr] }
    s.faulted = none ∧ s.ctrl.busy = true ∧ s.port = some (command 2 4000#16) ∧
      s.inputs = Input.instr :: [] ∧ Input.instr ≠ .engine ∧ Input.instr ≠ .reset := by decide

/-- The host would store to the first and the last byte of the buffer, fetch from its edges, load from it
(`lhu t0, 0(a0)` of P2, with a0 at the buffer), or run code of its own there; with its pc just past the
buffer or just before it, it would not. -/
theorem test_witness_buffer :
    (4096 ≤ (4096#32).toNat ∧ (4147#32).toNat < 4096 + 52) ∧
      (4096 ≤ (4093#32).toNat + 3 ∧ (4147#32).toNat + 0 < 4096 + 52) ∧
      (∀ j, j < 4 → ¬(4096 ≤ (4092#32).toNat + j ∧ (4092#32).toNat + j < 4096 + 52)) ∧
      (∀ j, j < 4 → ¬(4096 ≤ (4148#32).toNat + j ∧ (4148#32).toNat + j < 4096 + 52)) ∧
      (running 4 0).ctrl.bufBase.toNat = 4096 ∧ (running 4 0).ctrl.bufLen.toNat = 52 ∧
      (running 4 0).trap = none :=
  ⟨by decide, by decide, by decide, by decide, rfl, rfl, rfl⟩

theorem test_witness_buffer_access :
    let s := { State.writeReg (running 4 0) 10 4096#32 with mem := memWrite g1 0 4 0x00055283 }
    decodeRv32i s.fetchWord = some (.lhu 5 10 0) ∧ (Rv32i.lhu 5 10 0).access s = some (4096, 2) := by
  decide

/-- The NSE's steps one after the other without inputs: the start, G1's four samples, the end. -/
theorem test_witness_engine_run (k : Nat) (hk : k ≤ 6) :
    EngineRun k (waiting (command 3 0) g1) (moved (waiting (command 3 0) g1) k) := by
  have h : ∀ j, j < 6 → (moved (waiting (command 3 0) g1) j).faulted = none ∧
      (moved (waiting (command 3 0) g1) j).inputs = [] ∧
      (moved (waiting (command 3 0) g1) j).engineReady = true := by decide
  induction k with
  | zero => exact .start _
  | succ k ih =>
    obtain ⟨h1, h2, h3⟩ := h k (by omega)
    have hE : EngineMoves (moved (waiting (command 3 0) g1) k) (moved (waiting (command 3 0) g1) k) :=
      ⟨h1, .inl ⟨h2, h3, rfl⟩⟩
    exact .engine (ih (by omega)) ⟨_, hE⟩ (step_of_engineMoves hE)

/-- A run in which the host moves after the start step: its own code runs, then the NSE goes on. -/
theorem test_witness_engine_run_host :
    let s : State := { waiting (command 3 0) g1 with inputs := [.engine, .own 1 5 0] }
    Accepts s { s with inputs := [.own 1 5 0] } (command 3 0) ∧ ∃ t u, EngineRun 1 s t ∧
      EngineRun 1 s u ∧ u.readReg 1 = 5 := by
  intro s
  have hE : EngineMoves s { s with inputs := [.own 1 5 0] } := ⟨rfl, .inr (.inl ⟨_, rfl, rfl⟩)⟩
  have h1 := step_of_engineMoves hE
  have hf : (State.engineStep { s with inputs := [.own 1 5 0] }).faulted = none ∧
      (State.engineStep { s with inputs := [.own 1 5 0] }).inputs = [.own 1 5 0] ∧
      (State.engineStep { s with inputs := [.own 1 5 0] }).mustWait (.own 1 5 0) = false := by
    decide
  have h2 := step_of_input hf.1 hf.2.1 hf.2.2
  refine ⟨⟨hE, rfl, rfl⟩, _, _, .engine (.start s) ⟨_, hE⟩ h1,
    .other (.engine (.start s) ⟨_, hE⟩ h1) ?_ ?_ h2, by decide⟩
  · rintro ⟨t', -, ⟨q, -⟩ | ⟨rest, q, -⟩ | ⟨i, rest, q, w, -⟩⟩
    · rw [hf.2.1] at q
      cases q
    · rw [hf.2.1] at q
      cases q
    · rw [hf.2.1] at q
      injection q with q _
      subst q
      rw [hf.2.2] at w
      cases w
  · intro rest q
    rw [hf.2.1] at q
    cases q

/-- A step of the host while a PROCESS runs: it presents a command, on a free port. -/
theorem test_witness_host_step :
    let s : State := { running 4 0 with inputs := [.present (command 2 4000#16)] }
    Invariant s ∧ s.ctrl.busy = true ∧ s.port = none ∧ (∃ t, step s = .next t) ∧
      ¬∃ s', EngineMoves s s' := by
  refine ⟨?_, rfl, rfl, ⟨_, rfl⟩, ?_⟩
  · have h := (test_witness_running 0 (by decide)).1
    exact ⟨h.memWf, h.pcAligned, h.filterInv, h.ctrlInv, h.bufferFits⟩
  · rintro ⟨t', -, ⟨q, -⟩ | ⟨rest, q, -⟩ | ⟨i, rest, q, w, -⟩⟩
    · cases q
    · cases q
    · injection q with q _
      subst q
      cases w

/-- The NSE idle with a command at its port, in a state that meets the invariant. -/
theorem test_witness_idle_invariant : Invariant (waiting (command 3 0) g1) ∧
    EngineMoves (waiting (command 3 0) g1) (waiting (command 3 0) g1) ∧
    (waiting (command 3 0) g1).ctrl.busy = false :=
  ⟨⟨(by decide : g1.wf = true), rfl, test_witness_filter_inv,
      ⟨Nat.le_refl 0, by decide, fun _ => ⟨rfl, rfl⟩⟩, fun h => by cases h⟩,
    ⟨rfl, .inl ⟨rfl, rfl, rfl⟩⟩, rfl⟩

/-- Stores that may run: to memory just past the busy buffer, to CMD, to SAMPLE_IN, to BUSY. -/
theorem test_witness_store :
    let s : Word → State := fun a =>
      { running 4 0 with portMap := placed, inputs := [.store a 1] }
    (s 4148).mem.wf = true ∧ (s 4148).faulted = none ∧ (s 4148).port = none ∧
      ¬(4096 ≤ (4148#32).toNat ∧ (4148#32).toNat < 4096 + 52) ∧
      (∀ j, j < 4 → ¬(4096 ≤ (s 4148).pc.toNat + j ∧ (s 4148).pc.toNat + j < 4096 + 52)) ∧
      (s 4148).portAt (4148#32).toNat = none ∧ (s 512).portAt (512#32).toNat = some (.cmd, 0) ∧
      (s 515).portAt (515#32).toNat = some (.sampleIn, 1) ∧
      (s 516).portAt (516#32).toNat = some (.busy, 0) := by decide

/-- A step that does write the Filter State, and one that resets the block. -/
theorem test_witness_engine_writes :
    after (step (waiting (command 2 4000#16) [])) (fun t => t.filter.noise) = some 250000#32 ∧
      (waiting (command 2 4000#16) []).filter.noise ≠ 250000#32 ∧
      ({ State.reset with inputs := [.reset] } : State).inputs = Input.reset :: [] ∧
      State.reset.faulted = none := by decide

theorem test_witness_faulted :
    ({ State.reset with faulted := some .addressWrap } : State).faulted = some .addressWrap := rfl

/-- The registers of `pack`: `rtmp` differs from `rd`, `rhi` and x0. -/
theorem test_witness_pack_registers :
    (5 : RegIdx) ≠ 10 ∧ (5 : RegIdx) ≠ 11 ∧ (5 : RegIdx) ≠ 0 := by decide

/-- A state that meets the invariant and has a next state. -/
theorem test_witness_invariant_step :
    Invariant (fetching 0x0206068B) ∧ ∃ t, step (fetching 0x0206068B) = .next t :=
  ⟨⟨by decide, rfl, test_witness_filter_inv, ⟨Nat.le_refl 0, by decide, fun _ => ⟨rfl, rfl⟩⟩,
      fun h => by cases h⟩, by
    have h : (after (step (fetching 0x0206068B)) fun t => t.pc) = some 4#32 := by decide
    cases hs : step (fetching 0x0206068B) with
    | next t => exact ⟨t, rfl⟩
    | fault r => simp [hs, after] at h
    | refused r => simp [hs, after] at h⟩

end Sys2Proof.Tests
end

section
/-!
The statements of the scope (spec/00_scope.md R11 to R13): registers, wide memory accesses and the
faulted state.
-/
namespace Sys2Proof.Machine

/-! ### Registers (R11, R21) -/

@[simp] theorem State.writeReg_zero (s : State) (v : Word) : s.writeReg 0 v = s := rfl

/-- Settles O23: the read after a write, and the discarded write to register 0. -/
theorem registerReadAfterWrite : Obligations.RegisterReadAfterWrite := by
  intro s r r' v
  exact ⟨s.readReg_writeReg r r' v, s.writeReg_zero v⟩

/-! ### Wide accesses (R12, R51) -/

/-- Inside a wide write, byte `j` is the value's digit `j` in base 256. -/
theorem toNat_readByte_memWrite {m : Memory} {a n v j : Nat} (h : m.wf = true)
    (ha : a + n ≤ addressLimit) (hj : j < n) :
    (readByte (memWrite m a n v) (a + j)).toNat = v / 256 ^ j % 256 := by
  have hin : a ≤ a + j ∧ a + j < a + n := by omega
  rw [readByte_memWrite h ha, if_pos hin, Nat.add_sub_cancel_left, BitVec.toNat_ofNat]

/-- Outside a wide write, every byte reads as before. -/
theorem readByte_memWrite_outside {m : Memory} {a n v c : Nat} (h : m.wf = true)
    (ha : a + n ≤ addressLimit) (hc : ¬(a ≤ c ∧ c < a + n)) :
    readByte (memWrite m a n v) c = readByte m c := by
  rw [readByte_memWrite h ha, if_neg hc]

/-- Settles O24: the canonical form, the read back, the bytes written and the bytes left alone. -/
theorem wideAccessesAreLittleEndian : Obligations.WideAccessesAreLittleEndian := by
  intro m a n v h ha
  exact ⟨wf_memWrite h ha, memRead_memWrite h ha, fun _ hj => toNat_readByte_memWrite h ha hj,
    fun _ hc => readByte_memWrite_outside h ha hc⟩

/-! ### The faulted state (R13, R33) -/

/-- A run of one step or more answers the fault of its first step. -/
theorem run_succ_of_step_fault {M : Host.Core} {s : M.State} {r : M.Fault} (k : Nat)
    (h : M.step s = .fault r) : M.run (k + 1) s = .fault r := by
  rw [Host.Core.run, h]

/-- Settles O57: the first step answers the fault, and a run stops there, however long. -/
theorem faultedStateHasNoStep : Obligations.FaultedStateHasNoStep := by
  intro s r k h
  have hstep : step s = .fault r := step_of_faulted h
  exact ⟨hstep, run_succ_of_step_fault (M := core) k hstep⟩

end Sys2Proof.Machine
end

section
/-!
The statements of the state (spec/10_state.md R25 to R39): packing, the reset values, who writes the
block's registers, and the invariant that every step keeps.
-/
namespace Sys2Proof.Machine

/-! ### Packing (R25) -/

/-- Settles O21: each lane of a packed word is the integer packed, and a word is the packing of its
lanes. -/
theorem packAndUnpackAreInverse : Obligations.PackAndUnpackAreInverse :=
  ⟨fun lo hi hlo hlo' hhi hhi' =>
    ⟨lane0_pack_of_range hi hlo hlo', lane1_pack_of_range lo hhi hhi'⟩, pack_lanes⟩

/-! ### The reset values and the observation port (R33, R37, R39) -/

theorem EngStatus.code_injective : Function.Injective EngStatus.code := by
  intro e e'
  cases e <;> cases e' <;> decide

theorem EngStatus.code_ne_three (e : EngStatus) : e.code ≠ 3 := by
  cases e <;> decide

/-- Settles O56: the port copies each register, and the codes of ENG_STATUS tell its values apart. -/
theorem resetValuesAreTheSpecs : Obligations.ResetValuesAreTheSpecs := by
  have code_iff (e e' : EngStatus) : e.code = e'.code ↔ e = e' := EngStatus.code_injective.eq_iff
  refine ⟨fun s => ?_, by decide⟩
  exact ⟨rfl, rfl, rfl, rfl, rfl, rfl, rfl, rfl, rfl, rfl, rfl, rfl, code_iff _ .idle,
    code_iff _ .done, code_iff _ .rejected, EngStatus.code_ne_three _⟩

/-! ### Who writes the block's registers (R28) -/

/-- Every step that goes on is the NSE's, a hardware reset, or one of the host's that leaves the block
alone. -/
theorem step_engine_or_reset_or_host {s t : State} (h : step s = .next t) :
    (∃ s', EngineMoves s s' ∧ t = s'.engineStep) ∨
      (∃ rest, s.inputs = .reset :: rest ∧ t = State.blockReset { s with inputs := rest }) ∨
      HostStep s t := by
  by_cases hE : ∃ s', EngineMoves s s'
  · obtain ⟨s', hE⟩ := hE
    rw [step_of_engineMoves hE] at h
    injection h with h
    exact .inl ⟨s', hE, h.symm⟩
  · exact .inr (step_not_engine h hE)

/-- Settles O54: a step of the host changes neither register file, so a step that changes one is the
NSE's or a reset. -/
theorem hostNeverWritesTheEnginesState : Obligations.HostNeverWritesTheEnginesState := by
  intro s t h hchange
  obtain hE | ⟨rest, hi, -⟩ | hH := step_engine_or_reset_or_host h
  · exact .inl hE
  · exact .inr ⟨rest, hi⟩
  · obtain hf | hc := hchange
    · exact absurd hH.filter hf
    · exact absurd hH.ctrl hc

/-! ### The Filter State's invariant along a sample (R30 to R32, R153) -/

theorem FilterState.inv_zero : FilterState.zero.Inv :=
  ⟨rfl, by decide, by decide, by decide, by decide, by decide⟩

/-- The clipped sample lies within the default ceiling, whatever the sample (R153). -/
theorem clipSample_bounds (x : Int) :
    -16383 ≤ clipSample params x ∧ clipSample params x ≤ 16383 := by
  have hceil : s32 params.clipCeil = 16383 := by decide
  rw [clipSample, lane0_puClip16 (by omega), hceil]
  exact sat_bounds (by omega)

/-- The noise estimate is clamped to [0, 2^30], whatever it was (R31, R155). -/
theorem trackNoise_bounds (noise e : Word) :
    0 ≤ s32 (trackNoise params noise e) ∧ s32 (trackNoise params noise e) ≤ 1073741824 := by
  have hmax : s32 params.noiseMax = 1073741824 := by decide
  simp only [trackNoise, hmax]
  generalize s32 noise + _ = n
  have hsat : 0 ≤ sat n 0 1073741824 ∧ sat n 0 1073741824 ≤ 1073741824 := sat_bounds (by omega)
  rwa [s32_wrap32 (by omega) (by omega)]

theorem magnitude_bounds (c : Int) : 0 ≤ magnitude c ∧ magnitude c ≤ 32767 := by
  rw [magnitude, lane0_puAbs16]
  exact absLane_bounds (lane0_bounds _)

/-- The top byte of a magnitude has its high bit clear (R32, R156). -/
theorem topByte_le {m : Int} (h0 : 0 ≤ m) (h1 : m ≤ 32767) : (topByte m).toNat ≤ 127 := by
  rw [topByte, wrap16, BitVec.extractLsb'_toNat, BitVec.toNat_ofInt, Nat.shiftRight_eq_div_pow]
  omega

/-- A push keeps the bound on every slot when the pushed byte meets it (R32, R156). -/
theorem byteLane_pushSlot_le {hist : Word} {b : Byte} (j : BitVec 2) {k : Nat} (hk : k < 4)
    (hhist : byteLane hist k ≤ 127) (hb : b.toNat ≤ 127) :
    byteLane (pushSlot hist j.toNat b) k ≤ 127 := by
  rw [byteLane, slot_pushSlot hist j b hk]
  split
  · exact hb
  · exact hhist

/-- Steps 3 and 4 keep the invariant (R154 to R156). -/
theorem FilterState.Inv.track {f : FilterState} (h : f.Inv) (c : Int) : (track params f c).Inv where
  coefEqual := h.coefEqual
  noiseNonneg := (trackNoise_bounds _ _).1
  noiseAtMost := (trackNoise_bounds _ _).2
  slotAtMost k hk :=
    have hm := magnitude_bounds c
    byteLane_pushSlot_le f.hidx hk (h.slotAtMost k hk) (topByte_le hm.1 hm.2)
  prevAtLeast := h.prevAtLeast
  prevAtMost := h.prevAtMost

/-- The silence action keeps the invariant (R160). -/
theorem FilterState.Inv.silence {f : FilterState} (h : f.Inv) : (silence f).Inv :=
  ⟨rfl, h.noiseNonneg, h.noiseAtMost, h.slotAtMost, inv_zero.prevAtLeast, inv_zero.prevAtMost⟩

/-- Steps 6 to 12 keep the invariant: both coefficients take the one new value, and PREV the clipped
sample (R165, R171). -/
theorem FilterState.Inv.lmsUpdate {f : FilterState} (h : f.Inv) (hp : Int) {c : Int}
    (h1 : -16383 ≤ c) (h2 : c ≤ 16383) :
    FilterState.Inv { lmsUpdate params f hp with prev := wrap16 c } := by
  have hprev : sext16 (wrap16 c) = c := sext16_wrap16 (by omega) (by omega)
  exact ⟨rfl, h.noiseNonneg, h.noiseAtMost, h.slotAtMost, h1.trans_eq hprev.symm,
    hprev.trans_le h2⟩

/-- `SampleStep` keeps the invariant on every sample (R171). -/
theorem FilterState.Inv.sampleStep {f : FilterState} (h : f.Inv) (x : Int) :
    (sampleStep params f x).1.Inv := by
  have htrack := h.track (clipSample params x)
  by_cases henv : envelope params (Machine.track params f (clipSample params x)).hist = 0
  · rw [sampleStep_silent henv]
    exact htrack.silence
  · rw [sampleStep_loud henv]
    obtain ⟨hlo, hhi⟩ := clipSample_bounds x
    exact htrack.lmsUpdate _ hlo hhi

/-! ### The invariant along the NSE's steps (R33, R54, R172) -/

theorem Control.inv_zero : Control.zero.Inv :=
  ⟨Nat.le_refl 0, by decide, fun _ => ⟨rfl, rfl⟩⟩

/-- Settles O59: memory is empty, no PROCESS is in progress, and both register files are zero. -/
theorem resetMeetsTheInvariant : Obligations.ResetMeetsTheInvariant :=
  ⟨rfl, rfl, FilterState.inv_zero, Control.inv_zero, nofun⟩

section
variable {s : State} (h : Invariant s)
include h

/-- The invariant does not speak of the inputs or of the command at the port. -/
theorem Invariant.withInputsAndPort (rest : List Input) (p : Option PortInputs) :
    Invariant { s with inputs := rest, port := p } :=
  ⟨h.memWf, h.pcAligned, h.filterInv, h.ctrlInv, h.bufferFits⟩

/-- INIT (R151). -/
theorem Invariant.initStream : Invariant s.initStream :=
  ⟨h.memWf, h.pcAligned, FilterState.inv_zero, h.ctrlInv, h.bufferFits⟩

/-- STEP (R152). -/
theorem Invariant.runSample (x : Int) : Invariant (s.runSample x) :=
  ⟨h.memWf, h.pcAligned, h.filterInv.sampleStep x,
    ⟨h.ctrlInv.sidxAtMost, h.ctrlInv.countBound, h.ctrlInv.idleLatch⟩, h.bufferFits⟩

/-- A model fault changes no register, and no buffer is asked to fit any more (R233). -/
theorem Invariant.markFault (r : Fault) : Invariant (s.markFault r) :=
  ⟨h.memWf, h.pcAligned, h.filterInv, h.ctrlInv, nofun⟩

/-- A launch that ends in a model fault (R207, R233). -/
theorem Invariant.launchMarkFault (b l : Word) (r : Fault) :
    Invariant ((s.launch b l).markFault r) :=
  ⟨h.memWf, h.pcAligned, h.filterInv, ⟨h.ctrlInv.sidxAtMost, h.ctrlInv.countBound, nofun⟩, nofun⟩

/-- A launch that ends in the rejection of the container (R208). -/
theorem Invariant.launchReject (b l : Word) : Invariant (s.launch b l).reject :=
  ⟨h.memWf, h.pcAligned, h.filterInv,
    ⟨Control.inv_zero.sidxAtMost, Control.inv_zero.countBound, fun _ => ⟨rfl, rfl⟩⟩, nofun⟩

/-- The acceptance of a container that fits its buffer (R172, R207, R209). -/
theorem Invariant.launchAcceptContainer {b l : Word} {n : Nat} (hn : n < 2147483648)
    (hwrap : b.toNat + l.toNat ≤ 4294967296) (hfits : 44 + 2 * n ≤ l.toNat) :
    Invariant ((s.launch b l).acceptContainer n) := by
  have hcount : (BitVec.ofNat 32 n).toNat = n := by
    rw [BitVec.toNat_ofNat]
    omega
  exact ⟨h.memWf, h.pcAligned, FilterState.inv_zero,
    ⟨Nat.zero_le _, hcount.trans_lt hn, nofun⟩, fun _ _ => ⟨hwrap, hcount.symm ▸ hfits⟩⟩

/-- The start step of PROCESS keeps the invariant in each of its four outcomes (R172, R234). -/
theorem Invariant.processStart (b l : Word) : Invariant (s.processStart b l) := by
  by_cases hwrap : b.toNat + l.toNat ≤ 4294967296
  · cases hc : cgValidate params s.mem b.toNat l.toNat with
    | none =>
      rw [processStart_rejects hwrap hc]
      exact h.launchReject b l
    | some n =>
      by_cases hfits : 44 + 2 * n ≤ l.toNat
      · rw [processStart_accepts hwrap hc hfits]
        exact h.launchAcceptContainer (cgValidate_lt hc) hwrap hfits
      · rw [processStart_overruns hwrap hc (by omega)]
        exact h.launchMarkFault b l _
  · rw [processStart_wraps (by omega)]
    exact h.markFault _

/-- Every command keeps the invariant (R83). -/
theorem Invariant.runCommand (p : PortInputs) : Invariant (s.runCommand p) := by
  rw [State.runCommand]
  split
  · exact h
  · exact h.initStream
  · exact h.runSample _
  · exact h.processStart _ _

/-- The end step of PROCESS (R35, R172). -/
theorem Invariant.processEnd : Invariant s.processEnd :=
  ⟨h.memWf, h.pcAligned, h.filterInv,
    ⟨h.ctrlInv.sidxAtMost, h.ctrlInv.countBound, fun _ => ⟨rfl, rfl⟩⟩, nofun⟩

/-- One sample of PROCESS: it stays in the buffer, and SIDX reaches SAMPLE_COUNT at most (R54, R172). -/
theorem Invariant.processSample (hbuf : s.ctrl.bufferFits)
    (hi : s.ctrl.sidx.toNat < s.ctrl.sampleCount.toNat) : Invariant s.processSample := by
  have haddr : s.sampleAddress + 2 ≤ addressLimit := by
    obtain ⟨hspace, hfits⟩ := hbuf
    rw [sampleAddress_eq, addressLimit]
    omega
  have hsidx : (s.ctrl.sidx + 1).toNat ≤ s.ctrl.sampleCount.toNat := by
    rw [sidx_succ hi]
    exact hi
  rw [processSample_fits hbuf hi]
  exact ⟨wf_memWrite h.memWf haddr, h.pcAligned, h.filterInv.sampleStep _,
    ⟨hsidx, h.ctrlInv.countBound, h.ctrlInv.idleLatch⟩, fun _ _ => hbuf⟩

/-- Every step of the NSE keeps the invariant, in a state that is not FAULTED. -/
theorem Invariant.engineStep (hf : s.faulted = none) : Invariant s.engineStep := by
  rw [State.engineStep]
  split
  · rename_i hbusy
    rw [State.processNext]
    split
    · rename_i hi
      exact h.processSample (h.bufferFits hbusy hf) hi
    · exact h.processEnd
  · split
    · exact (h.withInputsAndPort s.inputs none).runCommand _
    · exact h

/-! ### The invariant along every step -/

/-- A hardware reset (R260). -/
theorem Invariant.blockReset : Invariant s.blockReset :=
  ⟨h.memWf, h.pcAligned, FilterState.inv_zero, Control.inv_zero, nofun⟩

/-- A step of the host leaves the block alone, memory canonical and the pc aligned (R28). -/
theorem Invariant.hostStep {t : State} (hH : HostStep s t) : Invariant t where
  memWf := hH.memWf h.memWf
  pcAligned := hH.pcAligned h.pcAligned
  filterInv := hH.filter ▸ h.filterInv
  ctrlInv := hH.ctrl ▸ h.ctrlInv
  bufferFits := by
    rw [hH.ctrl, hH.faulted]
    exact h.bufferFits

end

/-- Settles O60: the NSE's steps, a hardware reset and the host's steps each keep the invariant. -/
theorem everyStepKeepsTheInvariant : Obligations.EveryStepKeepsTheInvariant := by
  intro s t h hstep
  obtain ⟨s', hE, rfl⟩ | ⟨rest, -, rfl⟩ | hH := step_engine_or_reset_or_host hstep
  · obtain ⟨rest, rfl⟩ := hE.same
    exact (h.withInputsAndPort rest s.port).engineStep hE.1
  · exact (h.withInputsAndPort rest s.port).blockReset
  · exact h.hostStep hH

end Sys2Proof.Machine
end

section
/-!
The statements of the memory (spec/20_memory.md R53, R57, R59, R62 to R65): the host's fetch and its
stores, the busy buffer, and what the NSE writes.
-/
namespace Sys2Proof.Machine

/-! ### The host's turn on a decoded word (R53, R80, R101) -/

/-- The host's turn runs the instruction its aligned pc fetches, with no exception pending. -/
theorem hostTurn_of_decode {s : State} {i : Instr} (ht : s.trap = none) (hp : s.pc.toNat % 4 = 0)
    (hd : decode s.fetchWord = .instr i) : hostTurn s = exec i s := by
  simp only [hostTurn, ht, hp, hd, ne_eq, not_true_eq_false, if_false]

/-- Settles O6: the step is the host's turn, which runs what it decodes. -/
theorem stepRunsDecodedInstruction : Obligations.StepRunsDecodedInstruction := by
  intro s s' w i h hd
  have hstep := step_of_hostFetches h
  obtain ⟨-, -, htrap, hpc, rfl⟩ := h
  exact hstep.trans (hostTurn_of_decode htrap hpc hd)

/-! ### What the NSE writes (R57) -/

/-- The start step of PROCESS writes no memory, whatever its outcome (R57, R172). -/
theorem processStart_mem (s : State) (b l : Word) : (s.processStart b l).mem = s.mem := by
  by_cases hwrap : b.toNat + l.toNat ≤ 4294967296
  · cases hc : cgValidate params s.mem b.toNat l.toNat with
    | none => rw [processStart_rejects hwrap hc, State.reject_mem, State.launch_mem]
    | some n =>
      by_cases hfits : 44 + 2 * n ≤ l.toNat
      · rw [processStart_accepts hwrap hc hfits, State.acceptContainer_mem, State.launch_mem]
      · rw [processStart_overruns hwrap hc (by omega), State.markFault_mem, State.launch_mem]
  · rw [processStart_wraps (by omega), State.markFault_mem]

/-- The step that accepts a command writes no memory (R83). -/
theorem runCommand_mem (s : State) (p : PortInputs) : (s.runCommand p).mem = s.mem := by
  rw [State.runCommand]
  split
  · rfl
  · exact s.initStream_mem
  · exact s.runSample_mem _
  · exact processStart_mem s _ _

/-- Command code 3 is PROCESS (R83). -/
theorem runCommand_process {p : PortInputs} (h : p.cmd = 3) (s : State) :
    s.runCommand p = s.processStart p.bufBase p.bufLen := by
  rw [State.runCommand, h]
  rfl

/-- While no PROCESS is in progress, the NSE writes no memory. -/
theorem engineStep_mem_of_idle {s : State} (h : s.ctrl.busy = false) :
    s.engineStep.mem = s.mem := by
  rw [State.engineStep, h]
  cases hp : s.port with
  | none => rfl
  | some p => exact runCommand_mem _ p

/-- A step of the PROCESS in progress writes no byte outside its samples (R57). -/
theorem readByte_engineStep_outside {s : State} (h : Invariant s) (hf : s.faulted = none)
    (hbusy : s.ctrl.busy = true) {c : Nat} (hc : ¬(s.ctrl.bufBase.toNat + 44 ≤ c ∧
      c < s.ctrl.bufBase.toNat + 44 + 2 * s.ctrl.sampleCount.toNat)) :
    readByte s.engineStep.mem c = readByte s.mem c := by
  have hbuf := h.bufferFits hbusy hf
  rw [engineStep_busy hbusy, State.processNext]
  split
  · rename_i hi
    have haddr := sampleAddress_eq s
    have hspace : s.sampleAddress + 2 ≤ addressLimit := by
      obtain ⟨hwrap, hfits⟩ := hbuf
      rw [addressLimit]
      omega
    rw [processSample_fits hbuf hi]
    exact readByte_memWrite_outside h.memWf hspace (by omega)
  · rfl

/-- Settles O49: the start step and the other commands write nothing, and a sample's two bytes lie among
the samples. -/
theorem processWritesOnlyItsSamples : Obligations.ProcessWritesOnlyItsSamples := by
  refine ⟨fun s s' t hinv hE hstep => ?_, fun s s' p hA hcmd hwrap hc => ?_⟩
  · rw [step_of_engineMoves hE] at hstep
    injection hstep with ht
    subst ht
    have hf := hE.1
    obtain ⟨rest, rfl⟩ := hE.same
    refine ⟨fun hbusy a ha => ?_, fun hidle a => ?_⟩
    · exact readByte_engineStep_outside (hinv.withInputsAndPort rest s.port) hf hbusy ha
    · rw [engineStep_mem_of_idle (s := { s with inputs := rest }) hidle]
  · obtain ⟨-, rest, -, hstep⟩ := step_of_accepts hA
    rw [runCommand_process hcmd,
      processStart_rejects (s := { s with inputs := rest, port := none }) hwrap hc] at hstep
    exact ⟨_, hstep, rfl, fun _ => rfl⟩

/-! ### The host and the busy buffer (R62, R65, R264) -/

/-- A word of the extension's opcode is no host instruction (R79). -/
theorem decodeRv32i_of_decode_instr {w : Word} {i : Instr} (h : decode w = .instr i) :
    decodeRv32i w = none := by
  have hop : w.extractLsb' 0 7 = 0b0001011#7 := by
    by_contra hne
    have hrej : decode w = .rejected .notXadsp := if_pos hne
    rw [hrej] at h
    cases h
  rw [decodeRv32i, hop]
  rfl

/-- A host instruction at the pc that accesses the busy buffer is held up by that access. -/
theorem dataTouchesBuffer_of_access {s : State} {h : Rv32i} {a n : Nat}
    (hh : decodeRv32i s.fetchWord = some h) (ha : h.access s = some (a, n))
    (ht : s.touchesBuffer a n = true) : s.dataTouchesBuffer = true := by
  rw [State.dataTouchesBuffer]
  cases hd : decode s.fetchWord with
  | instr i =>
    rw [decodeRv32i_of_decode_instr hd] at hh
    cases hh
  | rejected r => simp only [hh, ha, ht]

/-- Settles O51: each of the four moves on the buffer must wait, and a step that is not the NSE's leaves
the buffer's bytes alone. -/
theorem hostKeepsOffTheBusyBuffer : Obligations.HostKeepsOffTheBusyBuffer := by
  refine ⟨?_, fun s t hinv hbusy hstep hn a h1 h2 => ?_⟩
  · intro s i rest hf hbusy hi inBuffer hmove
    have touches {a n j : Nat} (hj : j < n) (hin : inBuffer (a + j)) :
        s.touchesBuffer a n = true := touchesBuffer_iff.mpr ⟨hbusy, j, hj, hin⟩
    have hw : s.mustWait i = true := by
      obtain ⟨a, b, rfl, hin⟩ | ⟨rfl, j, hj, hin⟩ | ⟨rfl, h, a, n, j, hh, ha, hj, hin⟩ |
        ⟨htrap, hne, hnr, j, hj, hin⟩ := hmove
      · have ht : s.touchesBuffer a.toNat 1 = true := touches Nat.one_pos hin
        simp [State.mustWait, ht]
      · simp [State.mustWait, State.hostBlocked, touches hj hin]
      · simp [State.mustWait, State.hostBlocked,
          dataTouchesBuffer_of_access hh ha (touches hj hin)]
      · exact mustWait_of_hostStalled (hostStalled_iff.mpr (.inr ⟨htrap, touches hj hin⟩)) hne hnr
    obtain ⟨hhost, hinputs, -⟩ := processNext_keeps s
    rw [step_of_waiting hf hi hw, engineStep_busy hbusy]
    exact ⟨rfl, hhost, hinputs⟩
  · obtain ⟨rest, -, rfl⟩ | hH := step_not_engine hstep hn
    · rfl
    · exact hH.offBuffer hinv.memWf hbusy a h1 h2

/-! ### The host's store of one byte (R59, R62, R263) -/

section
variable (p : PortInputs) (r : Config.NseRegister) (k : Nat) (b : Byte)

/-- Byte 0 of CMD drives the command code, and nothing else does (R83, R150). -/
theorem PortInputs.drive_cmd :
    (p.drive r k b).cmd = if r = .cmd ∧ k = 0 then b.setWidth 2 else p.cmd := by
  cases r <;> simp [PortInputs.drive, putByte_cmd]

/-- A byte of SAMPLE_IN drives that byte of it, and nothing else does (R150). -/
theorem PortInputs.drive_sampleIn {j : Nat} (hj : j < 2) :
    (p.drive r k b).sampleIn.extractLsb' (8 * j) 8 =
      if r = .sampleIn ∧ k = j then b else p.sampleIn.extractLsb' (8 * j) 8 := by
  have hfit : 8 * j + 8 ≤ 16 := by omega
  cases r <;> simp [PortInputs.drive, byte_putByte _ _ _ hfit]

/-- A byte of BUF_BASE drives that byte of it, and nothing else does (R150). -/
theorem PortInputs.drive_bufBase {j : Nat} (hj : j < 4) :
    (p.drive r k b).bufBase.extractLsb' (8 * j) 8 =
      if r = .bufBase ∧ k = j then b else p.bufBase.extractLsb' (8 * j) 8 := by
  have hfit : 8 * j + 8 ≤ 32 := by omega
  cases r <;> simp [PortInputs.drive, byte_putByte _ _ _ hfit]

/-- A byte of BUF_LEN drives that byte of it, and nothing else does (R150). -/
theorem PortInputs.drive_bufLen {j : Nat} (hj : j < 4) :
    (p.drive r k b).bufLen.extractLsb' (8 * j) 8 =
      if r = .bufLen ∧ k = j then b else p.bufLen.extractLsb' (8 * j) 8 := by
  have hfit : 8 * j + 8 ≤ 32 := by omega
  cases r <;> simp [PortInputs.drive, byte_putByte _ _ _ hfit]

end

/-- A store to a register's address reaches that register and no memory (R59, R150). -/
theorem hostStore_of_register {s : State} {a : Word} {r : Config.NseRegister} {k : Nat} (b : Byte)
    (h : s.portAt a.toNat = some (r, k)) :
    (s.hostStore a b).mem = s.mem ∧ (s.hostStore a b).driven = s.driven.drive r k b ∧
      (s.hostStore a b).port =
        if r = .cmd ∧ k = 0 then some (s.driven.drive r k b) else s.port := by
  rw [hostStore_eq, h]
  by_cases hcmd : r = .cmd ∧ k = 0 <;> simp [hcmd]

/-- A store that is not held up: no command is held, and neither the byte nor the code at the pc is in
the busy buffer (R62, R264, R266). -/
theorem mustWait_store_eq_false {s : State} {a : Word} {b : Byte} (hport : s.port = none)
    (hbyte : s.ctrl.busy = true → ¬(s.ctrl.bufBase.toNat ≤ a.toNat ∧
      a.toNat < s.ctrl.bufBase.toNat + s.ctrl.bufLen.toNat))
    (hcode : s.ctrl.busy = true → s.trap = none → ∀ j, j < 4 →
      ¬(s.ctrl.bufBase.toNat ≤ s.pc.toNat + j ∧
        s.pc.toNat + j < s.ctrl.bufBase.toNat + s.ctrl.bufLen.toNat)) :
    s.mustWait (.store a b) = false := by
  rw [State.mustWait, Bool.or_eq_false_iff, ← Bool.not_eq_true, ← Bool.not_eq_true, hostStalled_iff,
    touchesBuffer_iff, touchesBuffer_iff]
  refine ⟨?_, fun ⟨hbusy, j, hj, hin⟩ => hbyte hbusy ?_⟩
  · rintro (hp | ⟨htrap, hbusy, j, hj, hin⟩)
    · simp [hport] at hp
    · exact hcode hbusy htrap j hj hin
  · obtain rfl : j = 0 := by omega
    exact hin

/-- Settles O52: the store runs at once, and what it does follows from what is placed at its address. -/
theorem hostStoreWritesItsByteAlone : Obligations.HostStoreWritesItsByteAlone := by
  intro s a b rest hwf hf hi hport hbyte hcode
  have hstep := step_of_input hf hi (mustWait_store_eq_false hport hbyte hcode)
  have hk : StoreKeeps { s with inputs := rest } (State.hostStore { s with inputs := rest } a b) :=
    hostWrite_keeps _ _ _ _
  refine ⟨_, hstep, hk.regs, hk.pc, hk.trap, hk.filter, hk.ctrl, hk.portMap, hk.draws,
    hk.faulted.trans hf, hk.inputs, ?_⟩
  cases hat : s.portAt a.toNat with
  | none =>
    rw [hostStore_eq, show State.portAt { s with inputs := rest } a.toNat = none from hat]
    exact ⟨hport, rfl, fun c => readByte_writeByte_of_wf a.toNat c b hwf⟩
  | some c =>
    obtain ⟨r, k⟩ := c
    obtain ⟨hmem, hdriven, hcmd⟩ :=
      hostStore_of_register (s := { s with inputs := rest }) b hat
    refine ⟨fun c => by rw [hmem], ?_⟩
    rw [hcmd, hdriven, hport]
    exact ⟨s.driven.drive_cmd r k b, fun j hj => s.driven.drive_sampleIn r k b hj,
      fun j hj => s.driven.drive_bufBase r k b hj, fun j hj => s.driven.drive_bufLen r k b hj, rfl⟩

end Sys2Proof.Machine
end

section
/-!
The statements of the encoding (spec/30_encoding.md R71 to R82): the decoder case by case, the decoder
and the encoder as inverses, the rows of the opcode table, the reserved words and their exception, and
the pseudo-instructions.
-/
namespace Sys2Proof.Machine

/-! ### The decoder's cases (R80) -/

theorem decodeFields_of_opcode_ne {f : Fields} (hop : f.opcode ≠ encOpcode) :
    decodeFields f = .rejected .notXadsp := if_pos hop

section
variable {f : Fields} (hop : f.opcode = encOpcode)
include hop

theorem decodeFields_of_funct3_ne (h3 : f.funct3 ≠ encFunct3) :
    decodeFields f = .rejected .reservedFunct3 := by
  rw [decodeFields, if_neg (not_not_intro hop), if_pos h3]

theorem decodeFields_of_selectOp_none (h3 : f.funct3 = encFunct3)
    (h : selectOp f.funct7 f.rd f.rs1 f.rs2 = none) :
    decodeFields f = .rejected .reservedFunct7 := by
  rw [decodeFields, if_neg (not_not_intro hop), if_neg (not_not_intro h3), h]

theorem decodeFields_of_selectOp_some (h3 : f.funct3 = encFunct3) {i : Instr}
    (h : selectOp f.funct7 f.rd f.rs1 f.rs2 = some i) :
    decodeFields f =
      if isUnary i ∧ f.rs2 ≠ params.encUnaryRs2 then .rejected .reservedRs2 else .instr i := by
  rw [decodeFields, if_neg (not_not_intro hop), if_neg (not_not_intro h3), h]

end

/-- The fields of a decoded instruction have passed every check of R80. -/
theorem decodeFields_eq_instr {f : Fields} {i : Instr} (h : decodeFields f = .instr i) :
    f.opcode = encOpcode ∧ f.funct3 = encFunct3 ∧ selectOp f.funct7 f.rd f.rs1 f.rs2 = some i ∧
      (isUnary i = true → f.rs2 = params.encUnaryRs2) := by
  rw [decodeFields] at h
  split_ifs at h with hop h3
  split at h
  · cases h
  · rename_i j hsel
    split_ifs at h with hu
    cases h
    exact ⟨not_not.mp hop, not_not.mp h3, hsel, by simpa using hu⟩

/-! ### The round trip (R71, R74, R77, R80) -/

/-- The selector finds an instruction by the fields of its encoding (R74). -/
theorem selectOp_encodeFields (i : Instr) :
    selectOp (encodeFields i).funct7 (encodeFields i).rd (encodeFields i).rs1 (encodeFields i).rs2 =
      some i := by
  rw [selectOp_eq]
  cases i <;> rfl

theorem decodeFields_encodeFields (i : Instr) : decodeFields (encodeFields i) = .instr i := by
  have hu : ¬(isUnary i = true ∧ (encodeFields i).rs2 ≠ params.encUnaryRs2) := fun ⟨h, hne⟩ =>
    hne (if_pos h)
  rw [decodeFields_of_selectOp_some rfl rfl (selectOp_encodeFields i), if_neg hu]

/-- The `funct7` of an instruction is the one whose value is its operation code (R74). -/
theorem encFunct7_eq_of_toNat {i : Instr} {f : BitVec 7} (h : i.op.toNat = f.toNat) :
    encFunct7 i.op = f := by
  have hlt := i.op.isLt
  rw [encFunct7_eq]
  apply BitVec.eq_of_toNat_eq
  rw [BitVec.toNat_setWidth, h]
  omega

/-- The fields of a decoded instruction are the encoder's (R71, R74, R77). -/
theorem encodeFields_of_decodeFields {f : Fields} {i : Instr} (h : decodeFields f = .instr i) :
    encodeFields i = f := by
  obtain ⟨hop, h3, hsel, hu⟩ := decodeFields_eq_instr h
  obtain ⟨h7, hrd, hrs1, -, hrs2⟩ := selectOp_some hsel
  have hf2 : (if isUnary i then params.encUnaryRs2 else i.rs2) = f.rs2 := by
    split
    · next hui => exact (hu hui).symm
    · next hui => rw [hrs2, if_neg hui]
  rw [encodeFields, encFunct7_eq_of_toNat h7, hf2, hrs1, hrd, ← h3, ← hop]

/-- A word decodes to an instruction exactly when its fields are the encoder's (R71, R80). -/
theorem decode_eq_instr_iff {w : Word} {i : Instr} :
    decode w = .instr i ↔ encodeFields i = fieldsOf w := by
  refine ⟨encodeFields_of_decodeFields, fun h => ?_⟩
  rw [decode, ← h, decodeFields_encodeFields]

/-- Settles O1: the word of an instruction decodes to it, and its bytes decode as the word does. -/
theorem decodeOfEncodeIsTheInstruction : Obligations.DecodeOfEncodeIsTheInstruction := by
  intro i
  have hword : decode (encode i) = .instr i := decode_eq_instr_iff.mpr (fieldsOf_wordOf _).symm
  exact ⟨hword, (decodeBytes_bytesOfWord _).trans hword⟩

/-- Settles O2: the decoder's fields are the encoder's, and the fields of a word make up the word. -/
theorem encodeOfDecodeIsTheWord : Obligations.EncodeOfDecodeIsTheWord := by
  intro w i h
  rw [encode, decode_eq_instr_iff.mp h, wordOf_fieldsOf]

/-! ### The rows of the opcode table (R74) -/

/-- A word is in a row when its `funct7`, `funct3` and opcode are the row's, and in a unary row the fixed
`rs2` too (R74, R77). -/
theorem and_rowMask_eq_rowMatch_iff {w : Word} {op : Nat} :
    w &&& rowMask op = rowMatch op ↔
      (fieldsOf w).funct7 = encFunct7 (BitVec.ofNat 4 op) ∧
        (unaryOp op = true → (fieldsOf w).rs2 = params.encUnaryRs2) ∧
        (fieldsOf w).funct3 = encFunct3 ∧ (fieldsOf w).opcode = encOpcode := by
  have hinj (f g : Fields) : wordOf f = wordOf g ↔ f = g := ⟨wordOf_inj, congrArg wordOf⟩
  conv_lhs => rw [← wordOf_fieldsOf w]
  rw [rowMask, rowMatch, wordOf_and, hinj, Fields.mk.injEq]
  simp only [BitVec.and_allOnes]
  cases unaryOp op with
  | true =>
    rw [if_pos rfl, BitVec.and_allOnes]
    simp
  | false => simp

/-- A word is in the row of an instruction with the word's operands exactly when it decodes to that
instruction (R71, R74). -/
theorem row_iff_decode {w : Word} {op : Nat} (i : Instr) (hop : i.op.toNat = op)
    (hrd : i.rd = (fieldsOf w).rd) (hrs1 : i.rs1 = (fieldsOf w).rs1)
    (hrs2 : isUnary i = false → i.rs2 = (fieldsOf w).rs2) :
    w &&& rowMask op = rowMatch op ↔ decode w = .instr i := by
  subst hop
  have hu : unaryOp i.op.toNat = isUnary i := by cases i <;> rfl
  rw [and_rowMask_eq_rowMatch_iff, hu, decode_eq_instr_iff, BitVec.ofNat_toNat, BitVec.setWidth_eq]
  constructor
  · rintro ⟨h7, h2, h3, hop⟩
    rw [encodeFields, ← h7, ← h3, ← hop, hrd, hrs1]
    cases h : isUnary i with
    | true => rw [if_pos rfl, ← h2 h]
    | false => rw [if_neg Bool.false_ne_true, hrs2 h]
  · intro h
    rw [← h]
    exact ⟨rfl, fun hunary => if_pos hunary, rfl, rfl⟩

/-- A row's `funct7` is the number of the row (R74). -/
theorem funct7_of_row {w : Word} {op : Nat} (hop : op < 10) (h : w &&& rowMask op = rowMatch op) :
    (fieldsOf w).funct7.toNat = op := by
  have hrow : ∀ k < 10, (encFunct7 (BitVec.ofNat 4 k)).toNat = k := by decide
  rw [(and_rowMask_eq_rowMatch_iff.mp h).1, hrow op hop]

/-- The operation code of a decoded instruction is its word's `funct7` (R74). -/
theorem op_of_decode {w : Word} {i : Instr} (h : decode w = .instr i) :
    i.op.toNat = (w.extractLsb' 25 7).toNat := by
  obtain ⟨-, -, hsel, -⟩ := decodeFields_eq_instr h
  exact (selectOp_some hsel).1

/-- The operands of a decoded instruction are its word's operand fields (R71, R77). -/
theorem operands_of_decode {w : Word} {i : Instr} (h : decode w = .instr i) :
    i.rd = w.extractLsb' 7 5 ∧ i.rs1 = w.extractLsb' 15 5 ∧ i.rs2 = w.extractLsb' 20 5 := by
  have hf := decode_eq_instr_iff.mp h
  have hrs2 : i.rs2 = (encodeFields i).rs2 := by cases i <;> rfl
  exact ⟨congrArg Fields.rd hf, congrArg Fields.rs1 hf, hrs2.trans (congrArg Fields.rs2 hf)⟩

/-- A 4-bit code that is all of `funct7` is its four low bits. -/
theorem op_eq_extract {w : Word} {op : BitVec 4} (h : op.toNat = (w.extractLsb' 25 7).toNat) :
    op = w.extractLsb' 25 4 := by
  have hlt := op.isLt
  rw [BitVec.extractLsb'_toNat] at h
  apply BitVec.eq_of_toNat_eq
  rw [BitVec.extractLsb'_toNat]
  omega

/-- Settles O3: the ten rows are the instances of one law, an instruction's code is the word's `funct7`,
and so is a row's number. -/
theorem tableRowsDecodeTheirWords : Obligations.TableRowsDecodeTheirWords := by
  intro w rd rs1 rs2
  refine ⟨row_iff_decode (op := 0) (.clip16 rd rs1 rs2) rfl rfl rfl fun _ => rfl,
    row_iff_decode (op := 1) (.abs16 rd rs1) rfl rfl rfl nofun,
    row_iff_decode (op := 2) (.abs2 rd rs1) rfl rfl rfl nofun,
    row_iff_decode (op := 3) (.mac16 rd rs1 rs2) rfl rfl rfl fun _ => rfl,
    row_iff_decode (op := 4) (.msub16 rd rs1 rs2) rfl rfl rfl fun _ => rfl,
    row_iff_decode (op := 5) (.conv4 rd rs1 rs2) rfl rfl rfl fun _ => rfl,
    row_iff_decode (op := 6) (.conv8 rd rs1 rs2) rfl rfl rfl fun _ => rfl,
    row_iff_decode (op := 7) (.lmsstep rd rs1 rs2) rfl rfl rfl fun _ => rfl,
    row_iff_decode (op := 8) (.cmac rd rs1 rs2) rfl rfl rfl fun _ => rfl,
    row_iff_decode (op := 9) (.shiftn rd rs1 rs2) rfl rfl rfl fun _ => rfl, fun i h => ?_, ?_⟩
  · exact ⟨op_eq_extract (op_of_decode h), op_of_decode h⟩
  · intro j k hj hk hwj hwk
    rw [← funct7_of_row hj hwj, funct7_of_row hk hwk]

/-- Settles O7: the decoder run on each of the eight words. -/
theorem specWordsDecode : Obligations.SpecWordsDecode := by
  unfold Obligations.SpecWordsDecode
  decide

/-! ### The decoder as a total function, and the reserved words (R78, R80) -/

/-- A word with an assigned `funct7` is reserved or an instruction by the `rs2` of the unary forms
(R77, R78). -/
theorem decode_of_assigned_funct7 {w : Word} (hop : (fieldsOf w).opcode = encOpcode)
    (h3 : (fieldsOf w).funct3 = encFunct3) (h7 : ¬10 ≤ (fieldsOf w).funct7.toNat) :
    ∃ i, decode w =
      if ((fieldsOf w).funct7.toNat = 1 ∨ (fieldsOf w).funct7.toNat = 2) ∧
          (fieldsOf w).rs2 ≠ params.encUnaryRs2 then .rejected .reservedRs2
      else .instr i := by
  obtain ⟨i, hsel⟩ := Option.ne_none_iff_exists'.mp (mt selectOp_none.mp h7)
  obtain ⟨-, -, -, hunary, -⟩ := selectOp_some hsel
  refine ⟨i, (decodeFields_of_selectOp_some hop h3 hsel).trans ?_⟩
  simp only [hunary]

theorem isReserved_iff {w : Word} : isReserved w = true ↔
    decode w = .rejected .reservedFunct3 ∨ decode w = .rejected .reservedFunct7 ∨
      decode w = .rejected .reservedRs2 := by
  rw [isReserved]
  split <;> simp_all

/-- Settles O4: each branch of the rule is a case of the decoder. -/
theorem decoderIsTheSpecsFunction : Obligations.DecoderIsTheSpecsFunction := by
  intro w
  split_ifs with hop h3 h7 hu
  · exact decodeFields_of_opcode_ne hop
  · exact isReserved_iff.mpr (.inl (decodeFields_of_funct3_ne (not_not.mp hop) h3))
  · exact isReserved_iff.mpr (.inr (.inl
      (decodeFields_of_selectOp_none (not_not.mp hop) (not_not.mp h3) (selectOp_none.mpr h7))))
  · obtain ⟨i, hdec⟩ := decode_of_assigned_funct7 (not_not.mp hop) (not_not.mp h3) h7
    exact isReserved_iff.mpr (.inr (.inr (hdec.trans (if_pos hu))))
  · obtain ⟨i, hdec⟩ := decode_of_assigned_funct7 (not_not.mp hop) (not_not.mp h3) h7
    have hinstr : decode w = .instr i := hdec.trans (if_neg hu)
    exact ⟨i, hinstr, op_of_decode hinstr, operands_of_decode hinstr⟩

/-- The reserved words are the three cases of R78. -/
theorem isReserved_iff_fields (w : Word) : isReserved w = true ↔
    w.extractLsb' 0 7 = 0b0001011#7 ∧
      (w.extractLsb' 12 3 ≠ 0#3 ∨ 10 ≤ (w.extractLsb' 25 7).toNat ∨
        (((w.extractLsb' 25 7).toNat = 1 ∨ (w.extractLsb' 25 7).toNat = 2) ∧
          w.extractLsb' 20 5 ≠ 0#5)) := by
  have h := decoderIsTheSpecsFunction w
  split_ifs at h with hop h3 h7 hu
  · exact iff_of_false (by simp [isReserved, h]) fun hr => hop hr.1
  · exact iff_of_true h ⟨not_not.mp hop, .inl h3⟩
  · exact iff_of_true h ⟨not_not.mp hop, .inr (.inl h7)⟩
  · exact iff_of_true h ⟨not_not.mp hop, .inr (.inr hu)⟩
  · obtain ⟨i, hi, -⟩ := h
    exact iff_of_false (by simp [isReserved, hi]) fun ⟨_, hr⟩ => hr.elim h3 (Or.rec h7 hu)

/-- On a reserved word the host's turn raises the exception and does nothing else (R231). -/
theorem hostTurn_of_reserved {s : State} (ht : s.trap = none) (hp : s.pc.toNat % 4 = 0)
    (hr : isReserved s.fetchWord = true) : hostTurn s = .next (s.raiseIllegal s.fetchWord) := by
  rw [hostTurn, ht]
  dsimp only
  rw [if_neg (not_not_intro hp)]
  rcases isReserved_iff.mp hr with h | h | h <;> rw [h]

/-- Settles O5: the step is the host's turn, which only hands the word over. -/
theorem reservedWordTrapsPrecisely : Obligations.ReservedWordTrapsPrecisely := by
  refine ⟨isReserved_iff_fields, fun s s' w h hr => ?_⟩
  have hstep := step_of_hostFetches h
  obtain ⟨rest, hs'⟩ := h.same
  obtain ⟨-, -, htrap, hpc, rfl⟩ := h
  refine ⟨_, hstep.trans (hostTurn_of_reserved htrap hpc hr), ?_⟩
  subst hs'
  exact ⟨rfl, rfl, fun _ => rfl, fun _ => rfl, rfl, rfl, rfl, rfl, rfl, rfl, rfl, rfl⟩

/-! ### A destination of x0 (R79) -/

/-- Every instruction ends in the common step (R101). -/
theorem exec_eq_retire (i : Instr) (s : State) : ∃ y, exec i s = .next (s.retire i.rd y) := by
  cases i <;> exact ⟨_, rfl⟩

/-- Settles O20: the common step with x0 as its destination. -/
theorem writeToX0OnlyAdvancesPc : Obligations.WriteToX0OnlyAdvancesPc := by
  intro i s hrd
  obtain ⟨y, h⟩ := exec_eq_retire i s
  rw [h, hrd, retire_x0]

/-! ### The pseudo-instructions (R82) -/

/-- An arithmetic right shift by a lane's width leaves the high lane, sign-extended (R9). -/
theorem sshiftRight_half (w : Word) : w.sshiftRight 16 = wrap32 (lane1 w) := by
  have hext : w.sshiftRight 16 = (w.extractLsb' 16 16).signExtend 32 := by
    apply BitVec.eq_of_getLsbD_eq
    intro i hi
    rw [BitVec.getLsbD_sshiftRight, BitVec.getLsbD_signExtend]
    by_cases h : i < 16
    · have hin : 16 + i < 32 := by omega
      simp [hi, h, hin]
    · have hin : ¬16 + i < 32 := by omega
      simp [hi, h, hin, BitVec.msb_eq_getLsbD_last]
  rw [hext, ← wrap32_sext16]
  rfl

/-- A left shift by a lane's width brings the low lane to the high one (R9). -/
theorem lane1_shiftLeft_half (w : Word) : lane1 (w <<< 16) = lane0 w := by
  have hext : (w <<< 16).extractLsb' 16 16 = w.extractLsb' 0 16 := by
    apply BitVec.eq_of_getLsbD_eq
    intro i hi
    have hin : 16 + i < 32 := by omega
    have hlt : i < 32 := by omega
    simp [hi, hin, hlt]
  rw [lane1_eq, lane0_eq, hext]

/-- A low half shifted up, and another with its high half shifted out, make a packed word (R9). -/
theorem shiftLeft_or_shiftLeft_ushiftRight_half (hi lo : Word) :
    hi <<< 16 ||| (lo <<< 16) >>> 16 = hi.extractLsb' 0 16 ++ lo.extractLsb' 0 16 := by
  apply BitVec.eq_of_getLsbD_eq
  intro i hlt
  rw [BitVec.getLsbD_append]
  by_cases h : i < 16
  · have hin : 16 + i < 32 := by omega
    simp [h, hlt, hin]
  · have hin : ¬16 + i < 32 := by omega
    have hhalf : i - 16 < 16 := by omega
    have hword : i - 16 < 32 := by omega
    simp [h, hlt, hin, hhalf, hword]

/-- A register just written by the common step (R11). -/
theorem readReg_retire_self (s : State) (rd : RegIdx) (y : Word) :
    (s.retire rd y).readReg rd = if rd = 0 then 0 else y :=
  (retires_retire s rd y).dest

theorem readReg_retire_of_ne (s : State) {rd r : RegIdx} (y : Word) (h : r ≠ rd) :
    (s.retire rd y).readReg r = s.readReg r :=
  (retires_retire s rd y).others r h

/-- `srai` by a lane's width (R82). -/
theorem run_srai_half (rd rs : RegIdx) (s : State) :
    (Rv32i.srai rd rs 16).run s = .next (s.retire rd (wrap32 (lane1 (s.readReg rs)))) := by
  rw [← sshiftRight_half]
  rfl

/-- `unpack.lo` shifts the low lane up to the high one and down again (R82). -/
theorem readReg_unpackLo (rd rs : RegIdx) (s : State) :
    ∃ t, runRv32i (unpackLo rd rs) s = .next t ∧
      t.readReg rd = if rd = 0 then 0 else wrap32 (lane0 (s.readReg rs)) := by
  have hslli : (Rv32i.slli rd rs 16).run s = .next (s.retire rd (s.readReg rs <<< 16)) := rfl
  refine ⟨_, (runRv32i_cons hslli).trans (runRv32i_cons (run_srai_half ..)), ?_⟩
  rw [readReg_retire_self, readReg_retire_self]
  split
  · rfl
  · rw [lane1_shiftLeft_half]

/-- `unpack.hi` shifts the high lane down (R82). -/
theorem readReg_unpackHi (rd rs : RegIdx) (s : State) :
    ∃ t, runRv32i (unpackHi rd rs) s = .next t ∧
      t.readReg rd = if rd = 0 then 0 else wrap32 (lane1 (s.readReg rs)) :=
  ⟨_, runRv32i_cons (run_srai_half rd rs s), readReg_retire_self _ _ _⟩

/-- `pack` clears the high half of `rlo` in `rtmp` and puts the low half of `rhi` above it (R82). -/
theorem readReg_packRegs {rd rlo rhi rtmp : RegIdx} (s : State) (hrd : rtmp ≠ rd)
    (hrhi : rtmp ≠ rhi) (h0 : rtmp ≠ 0) :
    ∃ t, runRv32i (packRegs rd rlo rhi rtmp) s = .next t ∧
      t.readReg rd = if rd = 0 then 0
        else (s.readReg rhi).extractLsb' 0 16 ++ (s.readReg rlo).extractLsb' 0 16 := by
  refine ⟨_, rfl, ?_⟩
  rw [readReg_retire_self]
  split
  · rfl
  · rename_i hne
    simp only [readReg_retire_self, readReg_retire_of_ne _ _ hrd, readReg_retire_of_ne _ _ hrhi.symm,
      if_neg h0, if_neg hne]
    exact shiftLeft_or_shiftLeft_ushiftRight_half _ _

/-- Settles O58: each expansion by the registers it leaves. -/
theorem pseudoInstructionsPackAndUnpack : Obligations.PseudoInstructionsPackAndUnpack :=
  ⟨readReg_unpackLo, readReg_unpackHi,
    fun _ _ _ _ s hrd hrhi h0 => readReg_packRegs s hrd hrhi h0⟩

end Sys2Proof.Machine
end

section
/-!
The statements of the primitives (spec/40_primitives.md R100 to R120): the value of each operation of
the PU, the common step around it, and the identities the source states as properties.
-/
namespace Sys2Proof.Machine

/-! ### The rows of the ten instructions (R74) -/

/-- A row's match column holds the operation code in `funct7`, above the opcode `custom-0`. -/
theorem rowMatch_eq : ∀ op < 10, rowMatch op = BitVec.ofNat 32 (0x2000000 * op + 0xB) := by
  decide

theorem toNat_op_lt (i : Instr) : i.op.toNat < 10 := by
  cases i <;> simp [Instr.op]

theorem encode_and_maskBinary_eq (i : Instr) (h : isUnary i = false) :
    encode i &&& 0xFE00707F#32 = BitVec.ofNat 32 (0x2000000 * i.op.toNat + 0xB) := by
  rw [encode_and_maskBinary i h, rowMatch_eq _ (toNat_op_lt i)]

theorem encode_and_maskUnary_eq (i : Instr) (h : isUnary i = true) :
    encode i &&& 0xFFF0707F#32 = BitVec.ofNat 32 (0x2000000 * i.op.toNat + 0xB) := by
  rw [encode_and_maskUnary i h, rowMatch_eq _ (toNat_op_lt i)]

/-! ### The common step (R101) -/

/-- A binary instruction retires with its operation's value, and with what holds of that value. -/
theorem binaryStep_result {f : Word → Word → Word} {rd rs1 rs2 : RegIdx} {s : State}
    {P : Word → Prop} (h : P (f (s.readReg rs1) (s.readReg rs2))) :
    ∃ t y, binaryStep f rd rs1 rs2 s = .next t ∧ Retires s t rd y ∧ P y := by
  obtain ⟨t, hstep, hret⟩ := binaryStep_completes f rd rs1 rs2 s
  exact ⟨t, _, hstep, hret, h⟩

/-- A unary instruction retires with its operation's value, and with what holds of that value. -/
theorem unaryStep_result {f : Word → Word} {rd rs1 : RegIdx} {s : State} {P : Word → Prop}
    (h : P (f (s.readReg rs1))) :
    ∃ t y, unaryStep f rd rs1 s = .next t ∧ Retires s t rd y ∧ P y := by
  obtain ⟨t, hstep, hret⟩ := unaryStep_completes f rd rs1 s
  exact ⟨t, _, hstep, hret, h⟩

/-- The value an instruction retires with is the PU port's for its operation code. -/
theorem exec_retires_puPort (i : Instr) (s : State) : ∃ y,
    puPort i.op (s.readReg i.rs1) (if i.op = 1 ∨ i.op = 2 then 0 else s.readReg i.rs2) = some y ∧
      exec i s = .next (s.retire i.rd y) := by
  cases i <;> exact ⟨_, rfl, rfl⟩

theorem puPort_of_reserved {op : BitVec 4} (a b : Word) (h : 10 ≤ op.toNat) :
    puPort op a b = none := by
  obtain ⟨k, hk⟩ := Nat.exists_eq_add_of_le' h
  simp only [puPort, hk]

/-- Settles O19: the port's value for each instruction, and the common step with that value. -/
theorem everyInstructionRetiresThePortsResult :
    Obligations.EveryInstructionRetiresThePortsResult := by
  refine ⟨fun i s => ?_, fun _ => puPort_of_reserved⟩
  obtain ⟨y, hport, hexec⟩ := exec_retires_puPort i s
  exact ⟨y, _, hport, hexec, retires_retire s i.rd y⟩

/-! ### `clip16` and `abs16` (R103 to R106) -/

/-- Settles O8: a lane of the result is the operand's lane, saturated. -/
theorem clip16SaturatesEachLane : Obligations.Clip16SaturatesEachLane := by
  intro rd rs1 rs2 s hlimit
  exact ⟨encode_and_maskBinary_eq _ rfl,
    binaryStep_result ⟨lane0_puClip16 hlimit, lane1_puClip16 hlimit⟩⟩

/-- Settles O9: the common step with the free value; the engine's two limits are constants. -/
theorem clip16NegativeLimitIsTheFreeValue : Obligations.Clip16NegativeLimitIsTheFreeValue := by
  refine ⟨fun rd rs1 rs2 s hneg => ?_, by decide, by decide⟩
  rw [← puClip16_of_neg hneg]
  exact binaryStep_completes puClip16 rd rs1 rs2 s

theorem absLane_eq_abs (v : Int) : absLane v = if v = -32768 then 32767 else |v| := by
  rw [absLane, Int.natCast_natAbs]

/-- Settles O10: a lane of the result is the operand's lane through `absLane`, never negative. -/
theorem abs16TakesEachLanesAbsoluteValue : Obligations.Abs16TakesEachLanesAbsoluteValue := by
  intro rd rs1 s
  refine ⟨encode_and_maskUnary_eq _ rfl, unaryStep_result ?_⟩
  rw [lane0_puAbs16, lane1_puAbs16, ← absLane_eq_abs, ← absLane_eq_abs]
  exact ⟨rfl, rfl, (absLane_bounds (lane0_bounds _)).1, (absLane_bounds (lane1_bounds _)).1⟩

/-! ### Sums of lane products (R107 to R109, R112) -/

/-- A sum of two squares of lanes is at most 2^31, so it fits an unsigned word (R107). -/
theorem u32_puAbs2 (a : Word) : u32 (puAbs2 a) = lane0 a ^ 2 + lane1 a ^ 2 := by
  have h0 := mul_lane_bounds (lane0_bounds a) (lane0_bounds a)
  have h1 := mul_lane_bounds (lane1_bounds a) (lane1_bounds a)
  have hnonneg := add_nonneg (mul_self_nonneg (lane0 a)) (mul_self_nonneg (lane1 a))
  rw [puAbs2, u32_wrap32 hnonneg (by omega), sq, sq]

/-- Settles O11. -/
theorem abs2IsTheExactSumOfSquares : Obligations.Abs2IsTheExactSumOfSquares := by
  intro rd rs1 s
  exact ⟨encode_and_maskUnary_eq _ rfl, unaryStep_result (u32_puAbs2 _)⟩

theorem eq_of_lanes_min {w : Word} (h0 : lane0 w = -32768) (h1 : lane1 w = -32768) :
    w = 0x80008000#32 := by
  rw [← pack_lanes w, h0, h1]
  decide

/-- The dot product reaches 2^31 only where both its products reach their maximum, which is where all
four lanes are -32768 (R108). -/
theorem tapSum_bounds {a b : Word} (h : ¬(a = 0x80008000#32 ∧ b = 0x80008000#32)) :
    -2147483648 ≤ tapSum a b ∧ tapSum a b ≤ 2147483647 := by
  have h0 := mul_lane_bounds (lane0_bounds a) (lane0_bounds b)
  have h1 := mul_lane_bounds (lane1_bounds a) (lane1_bounds b)
  rw [tapSum]
  refine ⟨by omega, ?_⟩
  by_contra hover
  obtain ⟨ha0, hb0⟩ := mul_lane_max (lane0_bounds a) (lane0_bounds b) (by omega)
  obtain ⟨ha1, hb1⟩ := mul_lane_max (lane1_bounds a) (lane1_bounds b) (by omega)
  exact h ⟨eq_of_lanes_min ha0 ha1, eq_of_lanes_min hb0 hb1⟩

/-- `mac16` in its two cases (R108). -/
theorem puMac16_cases (a b : Word) :
    if a = 0x80008000#32 ∧ b = 0x80008000#32 then puMac16 a b = 0x80000000#32
    else s32 (puMac16 a b) = lane0 a * lane0 b + lane1 a * lane1 b := by
  split
  case isTrue h =>
    obtain ⟨rfl, rfl⟩ := h
    decide
  case isFalse h =>
    obtain ⟨hlo, hhi⟩ := tapSum_bounds h
    exact s32_wrap32 hlo hhi

/-- Settles O12. -/
theorem mac16IsTheDotProduct : Obligations.Mac16IsTheDotProduct := by
  intro rd rs1 rs2 s
  exact ⟨encode_and_maskBinary_eq _ rfl, binaryStep_result (puMac16_cases _ _)⟩

/-- Settles O16: `lmsstep` and `mac16` wrap the same dot product. -/
theorem lmsstepIsTheDotProduct : Obligations.LmsstepIsTheDotProduct := by
  intro rd rs1 rs2 s
  exact ⟨encode_and_maskBinary_eq _ rfl, rfl, binaryStep_result (puMac16_cases _ _)⟩

/-- A difference of two products of lanes always fits a signed word (R109). -/
theorem s32_puMsub16 (a b : Word) :
    s32 (puMsub16 a b) = lane0 a * lane0 b - lane1 a * lane1 b := by
  have h0 := mul_lane_bounds (lane0_bounds a) (lane0_bounds b)
  have h1 := mul_lane_bounds (lane1_bounds a) (lane1_bounds b)
  exact s32_wrap32 (by omega) (by omega)

/-- Settles O13. -/
theorem msub16IsTheExactDifference : Obligations.Msub16IsTheExactDifference := by
  intro rd rs1 rs2 s
  exact ⟨encode_and_maskBinary_eq _ rfl, binaryStep_result (s32_puMsub16 _ _)⟩

/-! ### Convolutions (R110, R111) -/

/-- `n` products of factors that are at most `m`. -/
theorem sum_range_mul_le {f g : Nat → Nat} {m : Nat} (n : Nat) (hf : ∀ i, f i ≤ m)
    (hg : ∀ i, g i ≤ m) : ((List.range n).map fun i => f i * g i).sum ≤ n * (m * m) := by
  have hle : ∀ x ∈ (List.range n).map (fun i => f i * g i), x ≤ m * m := by
    simpa using fun i _ => Nat.mul_le_mul (hf i) (hg i)
  simpa using List.sum_le_card_nsmul _ _ hle

/-- Where a word is the sum of `n` products of factors at most `m`, and `n * (m * m)` fits a word, the
sum is exact and has that bound. -/
theorem toNat_sum_range_mul {f g : Nat → Nat} {m n : Nat} {y : Word} (hf : ∀ i, f i ≤ m)
    (hg : ∀ i, g i ≤ m) (hfit : n * (m * m) < 4294967296)
    (hy : y = BitVec.ofNat 32 ((List.range n).map fun i => f i * g i).sum) :
    y.toNat = ((List.range n).map fun i => f i * g i).sum ∧ y.toNat ≤ n * (m * m) := by
  have hle := sum_range_mul_le n hf hg
  have hexact : y.toNat = ((List.range n).map fun i => f i * g i).sum := by
    rw [hy, BitVec.toNat_ofNat]
    exact Nat.mod_eq_of_lt (by omega)
  exact ⟨hexact, hexact ▸ hle⟩

theorem puConv4_eq_sum (a b : Word) : puConv4 a b =
    BitVec.ofNat 32 ((List.range 4).map fun i => byteLane a i * byteLane b i).sum := by
  simp [puConv4, List.range_succ, Nat.add_assoc]

theorem puConv8_eq_sum (a b : Word) : puConv8 a b =
    BitVec.ofNat 32 ((List.range 8).map fun i => nibbleLane a i * nibbleLane b i).sum := by
  simp [puConv8, List.range_succ, Nat.add_assoc]

/-- Settles O14: each factor is at most 255. -/
theorem conv4SumsByteProducts : Obligations.Conv4SumsByteProducts := by
  intro rd rs1 rs2 s
  have hbyte (w : Word) (k : Nat) : byteLane w k ≤ 255 := Nat.le_of_lt_succ (byteLane_lt w k)
  exact ⟨encode_and_maskBinary_eq _ rfl, binaryStep_result
    (toNat_sum_range_mul (hbyte _) (hbyte _) (by decide) (puConv4_eq_sum _ _))⟩

/-- Settles O15: each factor is at most 15. -/
theorem conv8SumsNibbleProducts : Obligations.Conv8SumsNibbleProducts := by
  intro rd rs1 rs2 s
  have hnibble (w : Word) (k : Nat) : nibbleLane w k ≤ 15 := Nat.le_of_lt_succ (nibbleLane_lt w k)
  exact ⟨encode_and_maskBinary_eq _ rfl, binaryStep_result
    (toNat_sum_range_mul (hnibble _) (hnibble _) (by decide) (puConv8_eq_sum _ _))⟩

/-! ### `cmac` (R113) -/

/-- An integer saturated to the 16-bit range is a lane as it stands. -/
theorem lanes_pack_sat (lo hi : Int) :
    lane0 (pack (sat lo (-32768) 32767) (sat hi (-32768) 32767)) = sat lo (-32768) 32767 ∧
      lane1 (pack (sat lo (-32768) 32767) (sat hi (-32768) 32767)) = sat hi (-32768) 32767 := by
  obtain ⟨hlo, hlo'⟩ := sat_bounds (i := lo) (show (-32768 : Int) ≤ 32767 by decide)
  obtain ⟨hhi, hhi'⟩ := sat_bounds (i := hi) (show (-32768 : Int) ≤ 32767 by decide)
  exact ⟨lane0_pack_of_range _ hlo hlo', lane1_pack_of_range _ hhi hhi'⟩

/-- `cmac`'s two lanes; a floor shift by 15 is floor division by 32768 (R8, R113). -/
theorem lanes_puCmac (a b : Word) :
    lane0 (puCmac a b) = sat ((lane0 a * lane0 b - lane1 a * lane1 b) / 32768) (-32768) 32767 ∧
      lane1 (puCmac a b) = sat ((lane0 a * lane1 b + lane1 a * lane0 b) / 32768) (-32768) 32767 :=
  lanes_pack_sat _ _

/-- Settles O17. -/
theorem cmacIsTheSaturatedComplexProduct : Obligations.CmacIsTheSaturatedComplexProduct := by
  intro rd rs1 rs2 s
  exact ⟨encode_and_maskBinary_eq _ rfl, binaryStep_result (lanes_puCmac _ _)⟩

/-! ### `shiftn` (R114, R115) -/

theorem puShiftn_of_amount_zero {a b : Word} (h : shiftAmount b = 0) : puShiftn a b = a := by
  rw [puShiftn, h, roundShift, if_pos rfl, wrap32_s32]

theorem roundShift_of_ne_zero (v : Int) {n : Nat} (h : n ≠ 0) :
    roundShift v n = (v + 2 ^ (n - 1)) / 2 ^ n := by
  rw [roundShift, if_neg h, asr, Nat.cast_pow, Nat.cast_pow, Nat.cast_ofNat]

/-- `shiftn` in its two cases (R114). -/
theorem puShiftn_cases (a b : Word) :
    if b.toNat % 32 = 0 then puShiftn a b = a
    else s32 (puShiftn a b) = (s32 a + 2 ^ (b.toNat % 32 - 1)) / 2 ^ (b.toNat % 32) ∧
      -1073741824 ≤ s32 (puShiftn a b) ∧ s32 (puShiftn a b) ≤ 1073741824 := by
  rw [← shiftAmount_eq, s32_puShiftn]
  split
  case isTrue h => exact puShiftn_of_amount_zero h
  case isFalse h =>
    obtain ⟨hlo, hhi⟩ := s32_bounds a
    have hlt := shiftAmount_lt b
    exact ⟨roundShift_of_ne_zero _ h, roundShift_bounds hlo hhi (by omega) (by omega)⟩

/-- Settles O18. -/
theorem shiftnRoundsHalfUp : Obligations.ShiftnRoundsHalfUp := by
  intro rd rs1 rs2 s
  exact ⟨encode_and_maskBinary_eq _ rfl, binaryStep_result (puShiftn_cases _ _)⟩

/-! ### The stated identities (R119, R120) -/

/-- One step past the limit on either side clips to the limit (R119). -/
theorem puClip16_pack_past_limit {l : Int} (h0 : 0 ≤ l) (h1 : l ≤ 32766) :
    puClip16 (pack (l + 1) (-l - 1)) (wrap32 l) = pack l (-l) := by
  have hlimit : s32 (wrap32 l) = l := s32_wrap32 (by omega) (by omega)
  have hhigh : sat (l + 1) (-l) l = l := by
    rw [sat]
    omega
  have hlow : sat (-l - 1) (-l) l = -l := by
    rw [sat]
    omega
  rw [puClip16_of_nonneg (hlimit.symm ▸ h0), hlimit, lane0_pack_of_range _ (by omega) (by omega),
    lane1_pack_of_range _ (by omega) (by omega), hhigh, hlow]

theorem lanes_highPassTaps : lane0 (pack 1 (-1)) = 1 ∧ lane1 (pack 1 (-1)) = -1 := by decide

/-- The high-pass taps (R120) on any word: the difference of its lanes. -/
theorem puMac16_highPass (w : Word) : puMac16 w (pack 1 (-1)) = wrap32 (lane0 w - lane1 w) := by
  obtain ⟨h0, h1⟩ := lanes_highPassTaps
  rw [puMac16, tapSum, h0, h1, mul_one, mul_neg_one, sub_eq_add_neg]

/-- The same taps give `msub16` the sum of the lanes (R120). -/
theorem puMsub16_highPass (w : Word) : puMsub16 w (pack 1 (-1)) = wrap32 (lane0 w + lane1 w) := by
  obtain ⟨h0, h1⟩ := lanes_highPassTaps
  rw [puMsub16, h0, h1, mul_one, mul_neg_one, sub_neg_eq_add]

/-- Settles O22: the lanes of a packed word are its parts, and none of the sums leaves a word. -/
theorem statedIdentitiesHold : Obligations.StatedIdentitiesHold := by
  refine ⟨fun l => puClip16_pack_past_limit, fun x prev hx hx' hp hp' => ?_⟩
  have h0 : lane0 (pack x prev) = x := lane0_pack_of_range prev hx hx'
  have h1 : lane1 (pack x prev) = prev := lane1_pack_of_range x hp hp'
  have hsquares := u32_puAbs2 (pack x prev)
  rw [h0, h1, sq, sq] at hsquares
  rw [puMac16_highPass, puMsub16_highPass, h0, h1]
  exact ⟨rfl, rfl, s32_wrap32 (by omega) (by omega), rfl, s32_wrap32 (by omega) (by omega), rfl,
    hsquares, add_nonneg (mul_self_nonneg x) (mul_self_nonneg prev)⟩

end Sys2Proof.Machine
end

section
/-!
The statements of `SampleStep` (spec/41_engine.md R153 to R177): one value lemma per step of the engine,
then the output of a sample as one closed formula, and what a silent and a constant stream give.
-/
namespace Sys2Proof.Machine

/-! ### The parameters' values (R6) -/

@[simp] theorem s32_clipCeil : s32 params.clipCeil = 16383 := by decide
@[simp] theorem s32_noiseMax : s32 params.noiseMax = 1073741824 := by decide
@[simp] theorem s32_envCompThr : s32 params.envCompThr = 32 := by decide
@[simp] theorem s32_outLimit : s32 params.outLimit = 32767 := by decide
@[simp] theorem sext16_gMute : sext16 params.gMute = 0 := by decide
@[simp] theorem sext16_gM12 : sext16 params.gM12 = 8231 := by decide
@[simp] theorem sext16_gM4 : sext16 params.gM4 = 20675 := by decide
@[simp] theorem sext16_gUnity : sext16 params.gUnity = 32767 := by decide

/-! ### Steps 1 and 2 (R153, R154) -/

theorem clipSample_eq {x : Int} (h1 : -32768 ≤ x) (h2 : x ≤ 32767) :
    clipSample params x = max (-16383) (min 16383 x) := by
  rw [clipSample, lane0_puClip16 (by simp), lane0_pack_of_range 0 h1 h2, s32_clipCeil, sat]

/-- The magnitude is exact but at the signed minimum, which no clipped sample is. -/
theorem magnitude_eq {c : Int} (h1 : -32767 ≤ c) (h2 : c ≤ 32767) : magnitude c = |c| := by
  rw [magnitude, lane0_puAbs16, lane0_pack_of_range 0 (by omega) h2, absLane_eq_abs,
    if_neg (by omega)]

theorem u32_energy {c : Int} (h1 : -32768 ≤ c) (h2 : c ≤ 32767) : u32 (energy c) = c * c := by
  rw [energy, u32_puAbs2, lane0_pack_of_range 0 h1 h2,
    lane1_pack_of_range c (by decide) (by decide)]
  ring

theorem sq_le_of_clipped {c : Int} (h1 : -16383 ≤ c) (h2 : c ≤ 16383) : c * c ≤ 268402689 :=
  abs_le_iff_mul_self_le.mp ((abs_le.mpr ⟨h1, h2⟩).trans_eq (by decide : (16383 : Int) = |16383|))

/-- Settles O25: the clip leaves a lane that is not the signed minimum. -/
theorem clippedSampleMagnitudeAndEnergy : Obligations.ClippedSampleMagnitudeAndEnergy := by
  intro x h1 h2 c
  obtain ⟨hlo, hhi⟩ : -16383 ≤ c ∧ c ≤ 16383 := clipSample_bounds x
  have he : u32 (energy c) = c * c := u32_energy (by omega) (by omega)
  exact ⟨clipSample_eq h1 h2, magnitude_eq (by omega) (by omega), he,
    he.trans_le (sq_le_of_clipped hlo hhi)⟩

/-! ### Step 3 (R155) -/

/-- The noise estimate moves by the rounded 64th of the distance: neither the subtraction nor the sum
wraps, and the clamp does not act. -/
theorem s32_trackNoise {noise e : Word} (h0 : 0 ≤ s32 noise) (h1 : s32 noise ≤ 1073741824)
    (he : u32 e ≤ 1073741824) :
    s32 (trackNoise params noise e) = s32 noise + (u32 e - s32 noise + 32) / 64 := by
  have he0 := (u32_bounds e).1
  have hd : s32 (wrap32 (u32 e - s32 noise)) = u32 e - s32 noise :=
    s32_wrap32 (by omega) (by omega)
  have hshift : s32 (puShiftn (wrap32 (u32 e - s32 noise)) (shamtWord params.noiseShift)) =
      (u32 e - s32 noise + 32) / 64 := by
    rw [s32_puShiftn_shamt _ (by decide), hd]
    rfl
  simp only [trackNoise, hshift, s32_noiseMax]
  rw [sat_of_range (by omega) (by omega), s32_wrap32 (by omega) (by omega)]

/-- Settles O26: linear arithmetic from the exact move. -/
theorem noiseEstimateTracksEnergy : Obligations.NoiseEstimateTracksEnergy := by
  intro noise e h0 h1 he n n'
  have he0 := (u32_bounds e).1
  have hn' : n' = n + (u32 e - n + 32) / 64 := s32_trackNoise h0 h1 he
  refine ⟨hn', ?_, ?_, ⟨?_, ?_⟩, ?_⟩ <;> omega

/-! ### Step 4 (R156 to R159) -/

theorem toNat_topByte {m : Int} (h0 : 0 ≤ m) (h1 : m ≤ 32767) :
    ((topByte m).toNat : Int) = m / 256 := by
  rw [topByte, wrap16, BitVec.extractLsb'_toNat, BitVec.toNat_ofInt, Nat.shiftRight_eq_div_pow]
  omega

/-- The push of the magnitude of a clipped sample, slot by slot. -/
theorem byteLane_track {f : FilterState} {c : Int} (h1 : -16383 ≤ c) (h2 : c ≤ 16383) {k : Nat}
    (hk : k < 4) : byteLane (track params f c).hist k =
      if k = f.hidx.toNat then (topByte |c|).toNat else byteLane f.hist k := by
  show ((pushSlot f.hist f.hidx.toNat (topByte (magnitude c))).extractLsb' (8 * k) 8).toNat = _
  rw [slot_pushSlot f.hist f.hidx _ hk, magnitude_eq (by omega) (by omega)]
  split <;> rfl

theorem toNat_hidx_track (f : FilterState) (c : Int) :
    (track params f c).hidx.toNat = (f.hidx.toNat + 1) % 4 := by
  show (BitVec.ofNat 2 ((f.hidx.toNat + 1) % 4)).toNat = _
  rw [BitVec.toNat_ofNat]
  omega

/-- Settles O27. -/
theorem historyPushReplacesTheOldestSlot : Obligations.HistoryPushReplacesTheOldestSlot := by
  intro f c m k h1 h2 hm0 hm1 hk
  exact ⟨toNat_topByte hm0 hm1, byteLane_track h1 h2 hk, toNat_hidx_track f c⟩

/-- The sum of the four slots of a history (R157). -/
def slotSum (hist : Word) : Nat := ((List.range 4).map fun k => byteLane hist k).sum

/-- The sum of the eight nibbles of a history (R157). -/
def nibbleSum (hist : Word) : Nat := ((List.range 8).map fun k => nibbleLane hist k).sum

theorem slotSum_eq (hist : Word) : slotSum hist =
    byteLane hist 0 + byteLane hist 1 + byteLane hist 2 + byteLane hist 3 := by
  simp [slotSum, List.range_succ, Nat.add_assoc]

/-- The nibbles add up slot by slot. -/
theorem nibbleSum_eq (hist : Word) : nibbleSum hist =
    ((List.range 4).map fun k => byteLane hist k / 16 + byteLane hist k % 16).sum := by
  simp [nibbleSum, List.range_succ, ← nibbles_of_byteLane, Nat.add_assoc]

theorem slotSum_le (hist : Word) : slotSum hist ≤ 1020 := by
  have h (k : Nat) := byteLane_lt hist k
  have h0 := h 0
  have h1 := h 1
  have h2 := h 2
  have h3 := h 3
  rw [slotSum_eq]
  omega

theorem nibbleSum_le (hist : Word) : nibbleSum hist ≤ 120 := by
  have hle : ∀ x ∈ (List.range 8).map (fun k => nibbleLane hist k), x ≤ 15 := by
    simpa using fun k _ => Nat.le_of_lt_succ (nibbleLane_lt hist k)
  rw [nibbleSum]
  simpa using List.sum_le_card_nsmul _ _ hle

/-- The coefficients of `conv4` are 1, so the boxcar sum is that of the slots (R157). -/
theorem boxcar4_eq (hist : Word) : boxcar4 params hist = slotSum hist := by
  have hcoef : ∀ k < 4, byteLane params.envCoef4 k = 1 := by decide
  have hsum : ((List.range 4).map fun k => byteLane hist k * byteLane params.envCoef4 k) =
      (List.range 4).map fun k => byteLane hist k :=
    List.map_congr_left fun k hk => by rw [hcoef k (List.mem_range.mp hk), Nat.mul_one]
  have hle := slotSum_le hist
  rw [boxcar4, u32, puConv4_eq_sum, hsum, ← slotSum, BitVec.toNat_ofNat, Nat.mod_eq_of_lt (by omega)]

/-- The coefficients of `conv8` are 1, so the boxcar sum is that of the nibbles (R157). -/
theorem boxcar8_eq (hist : Word) : boxcar8 params hist = nibbleSum hist := by
  have hcoef : ∀ k < 8, nibbleLane params.envCoef8 k = 1 := by decide
  have hsum : ((List.range 8).map fun k => nibbleLane hist k * nibbleLane params.envCoef8 k) =
      (List.range 8).map fun k => nibbleLane hist k :=
    List.map_congr_left fun k hk => by rw [hcoef k (List.mem_range.mp hk), Nat.mul_one]
  have hle := nibbleSum_le hist
  rw [boxcar8, u32, puConv8_eq_sum, hsum, ← nibbleSum, BitVec.toNat_ofNat,
    Nat.mod_eq_of_lt (by omega)]

/-- The envelope is the eighth of the two sums, rounded half up; its floor of 0 does not act (R158). -/
theorem envelope_eq (hist : Word) :
    envelope params hist = ((slotSum hist + nibbleSum hist + 4) / 8 : Nat) := by
  have h4 := slotSum_le hist
  have h8 := nibbleSum_le hist
  have hsum : s32 (wrap32 (slotSum hist + nibbleSum hist)) = slotSum hist + nibbleSum hist :=
    s32_wrap32 (by omega) (by omega)
  rw [envelope, boxcar4_eq, boxcar8_eq, s32_puShiftn_shamt _ (by decide), hsum]
  show max 0 ((_ + 4) / 8 : Int) = _
  omega

/-- A sample is silent when its two sums add up to at most 3 (R159). -/
theorem envelope_eq_zero_iff (hist : Word) :
    envelope params hist = 0 ↔ slotSum hist + nibbleSum hist ≤ 3 := by
  rw [envelope_eq]
  omega

/-- Settles O28. -/
theorem silentExactlyWhenSumsAtMostThree : Obligations.SilentExactlyWhenSumsAtMostThree :=
  fun hist => ⟨boxcar4_eq hist, boxcar8_eq hist, envelope_eq hist, envelope_eq_zero_iff hist⟩

/-! ### Step 5 (R160) -/

/-- Settles O29: the silence action zeroes every register but the three that steps 3 and 4 wrote. -/
theorem silentSampleResetsTheHistory : Obligations.SilentSampleResetsTheHistory := by
  intro f x f1 henv
  rw [sampleStep_silent henv]
  exact ⟨rfl, rfl⟩

/-! ### Steps 6 and 9 (R161, R166) -/

theorem hpTaps_eq : hpTaps params = pack 1 (-1) := by decide

section
variable {c prev : Int}

theorem highPass_eq (hc : -32768 ≤ c ∧ c ≤ 32767) (hp : -32768 ≤ prev ∧ prev ≤ 32767) :
    highPass params c prev = c - prev := by
  rw [highPass, hpTaps_eq, puMac16_highPass, lane0_pack_of_range _ hc.1 hc.2,
    lane1_pack_of_range _ hp.1 hp.2, s32_wrap32 (by omega) (by omega)]

theorem dcSum_eq (hc : -32768 ≤ c ∧ c ≤ 32767) (hp : -32768 ≤ prev ∧ prev ≤ 32767) :
    dcSum params c prev = c + prev := by
  rw [dcSum, hpTaps_eq, puMsub16_highPass, lane0_pack_of_range _ hc.1 hc.2,
    lane1_pack_of_range _ hp.1 hp.2, s32_wrap32 (by omega) (by omega)]

/-- The mix coefficient is 3/4 - i/4 in Q15 (R166). -/
theorem lanes_mixCoef :
    lane0 (pack (sext16 params.cmRe) (sext16 params.cmIm)) = 24576 ∧
      lane1 (pack (sext16 params.cmRe) (sext16 params.cmIm)) = -8192 := by decide

/-- The mixed sample is (3 (c - prev) + (c + prev)) / 4; no lane narrows and nothing saturates. -/
theorem mix_eq (hc : -16383 ≤ c ∧ c ≤ 16383) (hp : -16383 ≤ prev ∧ prev ≤ 16383) :
    mix params (c - prev) (c + prev) = c + (-prev) / 2 := by
  obtain ⟨hre, him⟩ := lanes_mixCoef
  rw [mix, (lanes_puCmac _ _).1, hre, him, lane0_pack_of_range _ (by omega) (by omega),
    lane1_pack_of_range _ (by omega) (by omega), sat]
  omega

end

/-- Settles O30. -/
theorem highPassDcSumAndMixAreExact : Obligations.HighPassDcSumAndMixAreExact := by
  refine ⟨fun c prev hc hc' hp hp' =>
    ⟨highPass_eq ⟨hc, hc'⟩ ⟨hp, hp'⟩, dcSum_eq ⟨hc, hc'⟩ ⟨hp, hp'⟩⟩, fun c prev hc hc' hp hp' => ?_⟩
  rw [highPass_eq (by omega) (by omega), dcSum_eq (by omega) (by omega)]
  exact mix_eq ⟨hc, hc'⟩ ⟨hp, hp'⟩

/-! ### Steps 7, 8 and 12 (R162 to R165, R171) -/

/-- The prediction in the 32-bit ring: each of the four words is narrowed to a lane (R162). -/
theorem predict_eq (f : FilterState) :
    predict f = (f.d1.setWidth 16).signExtend 32 * (f.w1.setWidth 16).signExtend 32 +
      (f.d2.setWidth 16).signExtend 32 * (f.w2.setWidth 16).signExtend 32 := by
  simp only [predict, puLmsstep, tapSum, lane0_pack, lane1_pack, wrap16_s32, wrap32_add, wrap32_mul,
    wrap32_sext16]

/-- The adapted coefficient in the 32-bit ring (R164). -/
theorem adaptedCoef_eq (f : FilterState) (err : Word) :
    adaptedCoef params f err = f.w1 + puShiftn (err * f.d1) 12 := by
  have hshift : shamtWord params.lmsShift = 12 := by decide
  simp only [adaptedCoef, hshift, wrap32_add, wrap32_mul, wrap32_s32]

theorem predictionError_eq (hp : Int) (pred : Word) :
    predictionError hp pred = wrap32 hp - pred := by
  rw [predictionError, wrap32_sub, wrap32_s32]

/-- Settles O31: the updates of a loud sample, read in the 32-bit ring. -/
theorem loudSampleAdaptsTheCoefficients : Obligations.LoudSampleAdaptsTheCoefficients := by
  intro f x _ _ c f1 f2 henv low hp pred w
  obtain ⟨hlo, hhi⟩ : -16383 ≤ c ∧ c ≤ 16383 := clipSample_bounds x
  have hf2 : f2 = { lmsUpdate params f1 (highPass params c (sext16 f1.prev)) with
      prev := wrap16 c } := congrArg Prod.fst (sampleStep_loud henv)
  rw [highPass_eq (by omega) (sext16_bounds _)] at hf2
  have hw : adaptedCoef params f1 (predictionError (c - sext16 f1.prev) (predict f1)) = w := by
    rw [adaptedCoef_eq, predictionError_eq, predict_eq]
    rfl
  rw [hf2]
  exact ⟨hw, hw, rfl, rfl, rfl, rfl, rfl, rfl⟩

/-! ### Steps 10 and 11 (R168 to R170) -/

/-- The gain level by the parameters' values (R168). -/
theorem gainLevel_eq (noise e : Word) : gainLevel params noise e =
    if u32 e > min (4 * s32 noise) (2 ^ 31 - 1) then 32767
    else if u32 e > min (2 * s32 noise) (2 ^ 31 - 1) then 20675
    else if u32 e > s32 noise then 8231 else 0 := by
  simp only [gainLevel, threshold, sext16_gUnity, sext16_gM4, sext16_gM12, sext16_gMute]
  rfl

/-- The four gain levels (R168). -/
theorem gainLevel_cases (noise e : Word) :
    gainLevel params noise e = 32767 ∨ gainLevel params noise e = 20675 ∨
      gainLevel params noise e = 8231 ∨ gainLevel params noise e = 0 := by
  rw [gainLevel_eq]
  split_ifs <;> simp

/-- The cap changes near-unity alone, since the other levels are not above it (R169). -/
theorem capGain_gainLevel (env : Int) (noise e : Word) :
    capGain params env (gainLevel params noise e) =
      if env > 32 ∧ gainLevel params noise e = 32767 then 20675 else gainLevel params noise e := by
  have hg := gainLevel_cases noise e
  rw [capGain, s32_envCompThr, sext16_gM4]
  split_ifs <;> omega

/-- Settles O32. -/
theorem gainLevelFollowsTheThresholds : Obligations.GainLevelFollowsTheThresholds :=
  fun noise e env => ⟨gainLevel_eq noise e, capGain_gainLevel env noise e⟩

/-- The output and its range: the product of two lanes fits a word, and the gain is below 1 in Q15, so the
final clip does not act. At gain 0 the formula gives 0 too (R170). -/
theorem applyGain_eq {mixed g : Int} (hm : -32768 ≤ mixed ∧ mixed ≤ 32767) (h0 : 0 ≤ g)
    (h1 : g ≤ 32767) :
    applyGain params mixed g = (mixed * g + 16384) / 32768 ∧
      -32767 ≤ applyGain params mixed g ∧ applyGain params mixed g ≤ 32767 := by
  rw [applyGain, sext16_gMute]
  split
  case isTrue hmute =>
    subst hmute
    omega
  case isFalse =>
    have hlow : -1073709056 ≤ mixed * g := (mul_lane_bounds hm (by omega)).1
    have hhigh : mixed * g ≤ 1073676289 := by nlinarith
    have hmac : s32 (puMac16 (pack mixed 0) (pack g 0)) = mixed * g := by
      rw [puMac16, tapSum, lane0_pack_of_range 0 hm.1 hm.2, lane0_pack_of_range 0 (by omega) h1,
        lane1_pack_of_range g (by decide) (by decide), mul_zero, add_zero,
        s32_wrap32 (by omega) (by omega)]
    have hshift : s32 (puShiftn (puMac16 (pack mixed 0) (pack g 0)) (shamtWord params.gainShift)) =
        (mixed * g + 16384) / 32768 := by
      rw [s32_puShiftn_shamt _ (by decide), hmac]
      rfl
    dsimp only
    rw [hshift, lane0_puClip16 (by simp), lane0_pack_of_range 0 (by omega) (by omega), s32_outLimit,
      sat_of_range (by omega) (by omega)]
    omega

/-- Settles O33. -/
theorem outputIsTheRoundedScaledMix : Obligations.OutputIsTheRoundedScaledMix :=
  fun _ _ hm hm' h0 h1 => applyGain_eq ⟨hm, hm'⟩ h0 h1

/-! ### The whole sample (R171) -/

/-- What steps 3 and 4 write is kept to the end of the sample, silent or not. -/
theorem sampleStep_keeps_tracked (f : FilterState) (x : Int) :
    (sampleStep params f x).1.noise = (track params f (clipSample params x)).noise ∧
      (sampleStep params f x).1.hist = (track params f (clipSample params x)).hist ∧
      (sampleStep params f x).1.hidx = (track params f (clipSample params x)).hidx := by
  by_cases henv : envelope params (track params f (clipSample params x)).hist = 0
  · rw [sampleStep_silent henv]
    exact ⟨rfl, rfl, rfl⟩
  · rw [sampleStep_loud henv]
    exact ⟨rfl, rfl, rfl⟩

/-- The estimate after a sample, from an estimate in its range (R155). -/
theorem s32_noise_sampleStep {f : FilterState} (hf : f.Inv) (x : Int) :
    s32 (sampleStep params f x).1.noise = s32 f.noise +
      (clipSample params x * clipSample params x - s32 f.noise + 32) / 64 := by
  obtain ⟨hlo, hhi⟩ := clipSample_bounds x
  have he : u32 (energy (clipSample params x)) = _ := u32_energy (by omega) (by omega)
  have hle := sq_le_of_clipped hlo hhi
  rw [(sampleStep_keeps_tracked f x).1, ← he]
  exact s32_trackNoise hf.noiseNonneg hf.noiseAtMost (by omega)

/-- The byte pushed for a clipped sample. -/
theorem toNat_topByte_abs {c : Int} (h1 : -16383 ≤ c) (h2 : c ≤ 16383) :
    (topByte |c|).toNat = c.natAbs / 256 := by
  have h := toNat_topByte (m := c.natAbs) (by omega) (by omega)
  rw [Int.abs_eq_natAbs]
  omega

/-- The gain for a clipped sample: below the energies a clipped sample has, the clamp of the thresholds
does not act (R168, R169). -/
theorem capGain_of_clipped {noise : Word} {c env : Int} (h1 : -16383 ≤ c) (h2 : c ≤ 16383) :
    capGain params env (gainLevel params noise (energy c)) =
      if c * c > 4 * s32 noise then (if env > 32 then 20675 else 32767)
      else if c * c > 2 * s32 noise then 20675 else if c * c > s32 noise then 8231 else 0 := by
  have hle := sq_le_of_clipped h1 h2
  have hfour : c * c > min (4 * s32 noise) (2 ^ 31 - 1) ↔ c * c > 4 * s32 noise := by omega
  have htwo : c * c > min (2 * s32 noise) (2 ^ 31 - 1) ↔ c * c > 2 * s32 noise := by omega
  rw [capGain_gainLevel, gainLevel_eq, u32_energy (by omega) (by omega)]
  simp only [hfour, htwo]
  by_cases hunity : c * c > 4 * s32 noise
  · simp [hunity]
  · have hne : ¬(if c * c > 2 * s32 noise then (20675 : Int)
        else if c * c > s32 noise then 8231 else 0) = 32767 := by
      split_ifs <;> decide
    simp only [if_neg hunity, hne, and_false, if_false]

theorem capGain_bounds (env : Int) (noise e : Word) :
    0 ≤ capGain params env (gainLevel params noise e) ∧
      capGain params env (gainLevel params noise e) ≤ 32767 := by
  have hg := gainLevel_cases noise e
  rw [capGain_gainLevel]
  split_ifs <;> omega

/-- The output of a sample that is not silent (R161, R166, R170). -/
theorem gatedOutput_eq {f : FilterState} {c env : Int} (hc : -16383 ≤ c ∧ c ≤ 16383)
    (hp : -16383 ≤ sext16 f.prev ∧ sext16 f.prev ≤ 16383) :
    gatedOutput params f c env = ((c + (-sext16 f.prev) / 2) *
      capGain params env (gainLevel params f.noise (energy c)) + 16384) / 32768 := by
  obtain ⟨hg0, hg1⟩ := capGain_bounds env f.noise (energy c)
  rw [gatedOutput, highPass_eq (by omega) (by omega), dcSum_eq (by omega) (by omega), mix_eq hc hp]
  exact (applyGain_eq (by omega) hg0 hg1).1

/-- The output of a loud sample, with the gain for the new noise estimate (R171). -/
theorem sampleStep_output_of_loud {f : FilterState} (hf : f.Inv) {x : Int}
    (henv : envelope params (track params f (clipSample params x)).hist ≠ 0) :
    (sampleStep params f x).2 = ((clipSample params x + (-sext16 f.prev) / 2) *
      capGain params (envelope params (track params f (clipSample params x)).hist)
        (gainLevel params (sampleStep params f x).1.noise (energy (clipSample params x)))
      + 16384) / 32768 := by
  rw [(sampleStep_keeps_tracked f x).1, sampleStep_loud henv]
  exact gatedOutput_eq (clipSample_bounds x) ⟨hf.prevAtLeast, hf.prevAtMost⟩

/-- Settles O34: the silence gate by the envelope's value, the output by that of the mix and the gain. -/
theorem sampleOutputHasAClosedForm : Obligations.SampleOutputHasAClosedForm := by
  intro f x hf h1 h2 c e n slot s4 s8 env g
  have hclip : clipSample params x = c := clipSample_eq h1 h2
  obtain ⟨hlo, hhi⟩ : -16383 ≤ c ∧ c ≤ 16383 := by
    rw [← hclip]
    exact clipSample_bounds x
  have hnoise : s32 (sampleStep params f x).1.noise = n := by
    rw [s32_noise_sampleStep hf x, hclip]
  have hslot (k : Nat) (hk : k ∈ List.range 4) : byteLane (track params f c).hist k = slot k := by
    rw [byteLane_track hlo hhi (List.mem_range.mp hk), toNat_topByte_abs hlo hhi]
  have henv : envelope params (track params f c).hist = (env : Int) := by
    have h4 : slotSum (track params f c).hist = s4 := congrArg List.sum (List.map_congr_left hslot)
    have h8 : nibbleSum (track params f c).hist = s8 := by
      rw [nibbleSum_eq]
      exact congrArg List.sum (List.map_congr_left fun k hk => by rw [hslot k hk])
    rw [envelope_eq, h4, h8]
  refine ⟨hnoise, ?_⟩
  split
  case isTrue hsilent =>
    rw [sampleStep_silent (by rw [hclip, henv, hsilent]; rfl)]
  case isFalse hloud =>
    have hne : envelope params (track params f (clipSample params x)).hist ≠ 0 := by
      rw [hclip, henv]
      exact_mod_cast hloud
    have hcap : (env : Int) > 32 ↔ env > 32 := Nat.cast_lt
    rw [sampleStep_output_of_loud hf hne, hclip, henv, capGain_of_clipped hlo hhi, hnoise]
    simp only [hcap, g, e]

/-- Settles O35: the silence gate, the gated output and steps 3, 4 and 12 read none of the four. -/
theorem lmsStateNeverReachesTheOutput : Obligations.LmsStateNeverReachesTheOutput := by
  intro f d1 d2 w1 w2 x g
  by_cases henv : envelope params (track params f (clipSample params x)).hist = 0
  · rw [sampleStep_silent (f := g) henv, sampleStep_silent henv]
    exact ⟨rfl, rfl, rfl, rfl, rfl⟩
  · rw [sampleStep_loud (f := g) henv, sampleStep_loud henv]
    exact ⟨rfl, rfl, rfl, rfl, rfl⟩

/-! ### A silent stream (R176) -/

/-- A zero sample on a Filter State that is zero but for HIDX only advances HIDX. -/
theorem sampleStep_zero : ∀ j : BitVec 2, sampleStep params { FilterState.zero with hidx := j } 0 =
    ({ FilterState.zero with hidx := j + 1 }, 0) := by
  decide

/-- A stream of zero samples only advances HIDX. -/
theorem stream_zero (k : Nat) (j : BitVec 2) :
    streamOutputs { FilterState.zero with hidx := j } (List.replicate k 0) = List.replicate k 0 ∧
      streamFilter { FilterState.zero with hidx := j } (List.replicate k 0) =
        { FilterState.zero with hidx := j + BitVec.ofNat 2 k } := by
  induction k generalizing j with
  | zero => simp [streamOutputs, streamFilter]
  | succ k ih =>
    obtain ⟨hout, hfilter⟩ := ih (j + 1)
    have hidx : j + 1 + BitVec.ofNat 2 k = j + BitVec.ofNat 2 (k + 1) := by
      rw [BitVec.add_assoc, BitVec.add_comm 1, BitVec.ofNat_add]
      rfl
    rw [List.replicate_succ, streamOutputs, streamFilter, sampleStep_zero, hout, hfilter, hidx]
    exact ⟨rfl, rfl⟩

/-- Settles O36: the stream starts at HIDX = 0, and HIDX has two bits. -/
theorem silenceIsIdempotent : Obligations.SilenceIsIdempotent := by
  intro k
  obtain ⟨hout, hfilter⟩ := stream_zero k 0
  have hidx : BitVec.ofNat 2 (k % 4) = 0 + BitVec.ofNat 2 k := by
    apply BitVec.eq_of_toNat_eq
    simp
  rw [hidx]
  exact ⟨hout, hfilter⟩

/-! ### A constant stream (R177) -/

/-- The Filter State after `k` samples `x` of a new stream. -/
def constantFilter (x : Int) (k : Nat) : FilterState :=
  streamFilter FilterState.zero (List.replicate k x)

theorem constantFilter_succ (x : Int) (k : Nat) :
    constantFilter x (k + 1) = (sampleStep params (constantFilter x k) x).1 := by
  rw [constantFilter, List.replicate_succ', streamFilter_append]
  rfl

/-- The output of sample `k` of a constant stream. -/
theorem streamOutputs_replicate_getElem? (x : Int) (k : Nat) :
    (streamOutputs FilterState.zero (List.replicate (k + 1) x))[k]? =
      some (sampleStep params (constantFilter x k) x).2 := by
  have hlen : (streamOutputs FilterState.zero (List.replicate k x)).length = k := by
    rw [length_streamOutputs, List.length_replicate]
  rw [List.replicate_succ', streamOutputs_append, List.getElem?_append_right hlen.le, hlen,
    Nat.sub_self]
  rfl

theorem inv_constantFilter (x : Int) (k : Nat) : (constantFilter x k).Inv := by
  induction k with
  | zero => exact FilterState.inv_zero
  | succ k ih =>
    rw [constantFilter_succ]
    exact ih.sampleStep x

theorem toNat_hidx_constantFilter (x : Int) (k : Nat) : (constantFilter x k).hidx.toNat = k % 4 := by
  induction k with
  | zero => rfl
  | succ k ih =>
    rw [constantFilter_succ, (sampleStep_keeps_tracked _ x).2.2, toNat_hidx_track, ih]
    omega

/-- The slots pushed so far, at most the last four, all hold the one byte of the stream. -/
theorem byteLane_constantFilter {x : Int} {k j : Nat} (hj : j < 4) (hk : j < k) :
    byteLane (constantFilter x k).hist j = (clipSample params x).natAbs / 256 := by
  obtain ⟨hlo, hhi⟩ := clipSample_bounds x
  induction k with
  | zero => omega
  | succ k ih =>
    rw [constantFilter_succ, (sampleStep_keeps_tracked _ x).2.1, byteLane_track hlo hhi hj,
      toNat_topByte_abs hlo hhi, toNat_hidx_constantFilter]
    split
    · rfl
    · exact ih (by omega)

section
variable {x : Int} (hx : 256 ≤ |x|) (hx' : |x| ≤ 32767)
include hx hx'

theorem le_abs_clipSample : 256 ≤ |clipSample params x| := by
  obtain ⟨h1, h2⟩ := abs_le.mp hx'
  rw [clipSample_eq (by omega) h2]
  rw [Int.abs_eq_natAbs] at hx ⊢
  omega

theorem le_sq_clipSample : 65536 ≤ clipSample params x * clipSample params x :=
  abs_le_iff_mul_self_le.mp (show |(256 : Int)| ≤ _ from le_abs_clipSample hx hx')

/-- From the fourth sample on every slot is at least 1, so no sample is silent (R159). -/
theorem loud_constantFilter {k : Nat} (hk : 3 ≤ k) :
    envelope params (track params (constantFilter x k) (clipSample params x)).hist ≠ 0 := by
  have hslot (j : Nat) (hj : j < 4) : 1 ≤
      byteLane (track params (constantFilter x k) (clipSample params x)).hist j := by
    have habs := le_abs_clipSample hx hx'
    rw [← (sampleStep_keeps_tracked _ x).2.1, ← constantFilter_succ,
      byteLane_constantFilter hj (by omega)]
    rw [Int.abs_eq_natAbs] at habs
    omega
  have h0 := hslot 0 (by decide)
  have h1 := hslot 1 (by decide)
  have h2 := hslot 2 (by decide)
  have h3 := hslot 3 (by decide)
  rw [Ne, envelope_eq_zero_iff, slotSum_eq]
  omega

theorem prev_constantFilter {k : Nat} (hk : 4 ≤ k) :
    sext16 (constantFilter x k).prev = clipSample params x := by
  obtain ⟨j, rfl⟩ : ∃ j, k = j + 1 := ⟨k - 1, by omega⟩
  obtain ⟨hlo, hhi⟩ := clipSample_bounds x
  rw [constantFilter_succ, sampleStep_loud (loud_constantFilter hx hx' (by omega))]
  exact sext16_wrap16 (by omega) (by omega)

end

/-- How far the noise estimate is below the energy after `k` samples of a constant stream. -/
def noiseGap (x : Int) (k : Nat) : Int :=
  clipSample params x * clipSample params x - s32 (constantFilter x k).noise

theorem noiseGap_zero (x : Int) : noiseGap x 0 = clipSample params x * clipSample params x :=
  Int.sub_zero _

/-- The gap loses its rounded 64th at each sample (R155). -/
theorem noiseGap_succ (x : Int) (k : Nat) :
    noiseGap x (k + 1) = noiseGap x k - (noiseGap x k + 32) / 64 := by
  simp only [noiseGap, constantFilter_succ, s32_noise_sampleStep (inv_constantFilter x k)]
  omega

/-- The estimate never reaches the energy. -/
theorem noiseGap_pos {x : Int} (h : 0 < clipSample params x * clipSample params x) (k : Nat) :
    0 < noiseGap x k := by
  induction k with
  | zero =>
    rw [noiseGap_zero]
    exact h
  | succ k ih =>
    rw [noiseGap_succ]
    omega

/-- Past the 31 at which it may stop, the gap shrinks by 63/64 at each sample. -/
theorem noiseGap_decay (x : Int) (k : Nat) :
    64 ^ k * (noiseGap x k - 31) ≤ 63 ^ k * (clipSample params x * clipSample params x - 31) := by
  induction k with
  | zero => rw [noiseGap_zero, pow_zero, pow_zero]
  | succ k ih =>
    have hstep : 64 * (noiseGap x (k + 1) - 31) ≤ 63 * (noiseGap x k - 31) := by
      rw [noiseGap_succ]
      omega
    calc 64 ^ (k + 1) * (noiseGap x (k + 1) - 31)
      _ = 64 ^ k * (64 * (noiseGap x (k + 1) - 31)) := by ring
      _ ≤ 64 ^ k * (63 * (noiseGap x k - 31)) := Int.mul_le_mul_of_nonneg_left hstep (by positivity)
      _ = 63 * (64 ^ k * (noiseGap x k - 31)) := by ring
      _ ≤ 63 * (63 ^ k * (clipSample params x * clipSample params x - 31)) := by omega
      _ = _ := by ring

/-- From 45 samples on, the estimate is half the energy or more. -/
theorem noiseGap_le_half {x : Int} (h : 65536 ≤ clipSample params x * clipSample params x) {k : Nat}
    (hk : 45 ≤ k) : 2 * noiseGap x k ≤ clipSample params x * clipSample params x := by
  induction k, hk using Nat.le_induction with
  | base =>
    have hdecay := noiseGap_decay x 45
    norm_num at hdecay
    omega
  | succ k hk ih =>
    have hpos := noiseGap_pos (by omega : 0 < clipSample params x * clipSample params x) k
    rw [noiseGap_succ]
    omega

/-- Settles O37: the estimate is between half the energy and the energy, which is the -12 dB gain. -/
theorem constantStreamSettlesAtMinus12dB : Obligations.ConstantStreamSettlesAtMinus12dB := by
  intro x k hx hx' hk c
  obtain ⟨h1, h2⟩ := abs_le.mp hx'
  have hclip : clipSample params x = c := clipSample_eq (by omega) h2
  obtain ⟨hlo, hhi⟩ := clipSample_bounds x
  have hsq := le_sq_clipSample hx hx'
  have hpos := noiseGap_pos (by omega : 0 < clipSample params x * clipSample params x) (k + 1)
  have hhalf := noiseGap_le_half hsq (by omega : 45 ≤ k + 1)
  rw [noiseGap, constantFilter_succ] at hpos hhalf
  rw [streamOutputs_replicate_getElem?, sampleStep_output_of_loud (inv_constantFilter x k)
    (loud_constantFilter hx hx' (by omega)), prev_constantFilter hx hx' (by omega),
    capGain_of_clipped hlo hhi, if_neg (by omega), if_neg (by omega), if_pos (by omega), hclip]

end Sys2Proof.Machine
end

section
/-!
The statements of the NSE's commands (spec/41_engine.md R150 to R152, R172, R175): NOP, INIT and STEP, the
steps of a PROCESS one by one, how many there are in a run, and the held command.
-/
namespace Sys2Proof.Machine

/-! ### NOP, INIT and STEP (R83, R150 to R152) -/

section
variable {p : PortInputs}

theorem runCommand_nop (h : p.cmd = 0) (s : State) : s.runCommand p = s := by
  rw [State.runCommand, h]
  rfl

theorem runCommand_init (h : p.cmd = 1) (s : State) : s.runCommand p = s.initStream := by
  rw [State.runCommand, h]
  rfl

theorem runCommand_step (h : p.cmd = 2) (s : State) :
    s.runCommand p = s.runSample (sext16 p.sampleIn) := by
  rw [State.runCommand, h]
  rfl

end

/-- Settles O38. -/
theorem nopChangesNothing : Obligations.NopChangesNothing := by
  intro s s' p hA hcmd
  obtain ⟨-, rest, rfl, hstep⟩ := step_of_accepts hA
  rw [hstep, runCommand_nop hcmd]

/-- Settles O39: INIT writes the Filter State alone. -/
theorem initZeroesTheFilterState : Obligations.InitZeroesTheFilterState := by
  intro s s' p hA hcmd
  obtain ⟨hf, rest, rfl, hstep⟩ := step_of_accepts hA
  rw [runCommand_init hcmd] at hstep
  exact ⟨_, hstep, rfl, rfl, rfl, rfl, rfl, rfl, rfl, rfl, rfl, ⟨rfl, rfl, rfl, rfl, rfl, rfl⟩,
    fun _ => rfl, rfl, hf, rfl⟩

/-- An output sample is a 16-bit value, so a 16-bit register holds it (R170). -/
theorem sext16_sampleStep_output (f : FilterState) (x : Int) :
    sext16 (wrap16 (sampleStep params f x).2) = (sampleStep params f x).2 :=
  sext16_wrap16 (sampleStep_output_bounds f x).1 (sampleStep_output_bounds f x).2

/-- Settles O40. -/
theorem stepCommandRunsOneSample : Obligations.StepCommandRunsOneSample := by
  intro s s' p hA hcmd
  obtain ⟨hf, rest, rfl, hstep⟩ := step_of_accepts hA
  rw [runCommand_step hcmd] at hstep
  exact ⟨_, hstep, rfl, sext16_sampleStep_output _ _, rfl, ⟨rfl, rfl, rfl, rfl, rfl, rfl⟩,
    fun _ => rfl, rfl, hf, rfl⟩

/-! ### The steps of a PROCESS (R172) -/

/-- The start step on an accepted container whose payload fits its buffer (R172, R209). -/
theorem step_of_accepts_container {s s' : State} {p : PortInputs} {n : Nat} (hA : Accepts s s' p)
    (hcmd : p.cmd = 3) (hwrap : p.bufBase.toNat + p.bufLen.toNat ≤ 4294967296)
    (hc : cgValidate params s.mem p.bufBase.toNat p.bufLen.toNat = some n)
    (hfits : 44 + 2 * n ≤ p.bufLen.toNat) :
    s.faulted = none ∧ ∃ rest, step s = .next ((State.launch
      { s with inputs := rest, port := none } p.bufBase p.bufLen).acceptContainer n) := by
  obtain ⟨hf, rest, -, hstep⟩ := step_of_accepts hA
  refine ⟨hf, rest, ?_⟩
  rw [hstep, runCommand_process hcmd,
    processStart_accepts (s := { s with inputs := rest, port := none }) hwrap hc hfits]

/-- A sample count fits its register (R206). -/
theorem toNat_sampleCount {m : Memory} {b l n : Nat} (h : cgValidate params m b l = some n) :
    (BitVec.ofNat 32 n).toNat = n := by
  have hlt := cgValidate_lt h
  rw [BitVec.toNat_ofNat]
  omega

/-- Settles O43. -/
theorem acceptanceStartsANewStream : Obligations.AcceptanceStartsANewStream := by
  intro s s' p n hA hcmd hwrap hc hfits
  obtain ⟨hf, rest, hstep⟩ := step_of_accepts_container hA hcmd hwrap hc hfits
  exact ⟨_, hstep, rfl, rfl, toNat_sampleCount hc, rfl, rfl, rfl, rfl, rfl, fun _ => rfl,
    ⟨rfl, rfl, rfl, rfl, rfl, rfl⟩, hf, rfl⟩

/-- The PROCESS in progress goes on with a sample while one is left. -/
theorem engineStep_of_sample {s : State} (hbusy : s.ctrl.busy = true)
    (hi : s.ctrl.sidx.toNat < s.ctrl.sampleCount.toNat) : s.engineStep = s.processSample := by
  rw [engineStep_busy hbusy, State.processNext, if_pos hi]

/-- The PROCESS in progress ends when none is left. -/
theorem engineStep_of_end {s : State} (hbusy : s.ctrl.busy = true)
    (hi : s.ctrl.sampleCount.toNat ≤ s.ctrl.sidx.toNat) : s.engineStep = s.processEnd := by
  rw [engineStep_busy hbusy, State.processNext, if_neg (by omega)]

/-- Settles O45: the sample lies in the buffer, its output is a 16-bit value, and a wide write changes its
own bytes alone. -/
theorem processSampleOverwritesItsTwoBytes : Obligations.ProcessSampleOverwritesItsTwoBytes := by
  intro s s' hinv hE hbusy hi a r
  have hf := hE.1
  have hfits := hinv.bufferFits hbusy hf
  have hspace : a + 2 ≤ addressLimit := by
    obtain ⟨hwrap, hlen⟩ := hfits
    rw [addressLimit]
    omega
  have hstep := step_of_engineMoves hE
  obtain ⟨rest, rfl⟩ := hE.same
  rw [engineStep_of_sample (s := { s with inputs := rest }) hbusy hi,
    processSample_fits (s := { s with inputs := rest }) hfits hi, State.sampleIn,
    sampleAddress_eq] at hstep
  have hout : sext16 (wrap16 r.2) = r.2 := sext16_sampleStep_output _ _
  refine ⟨_, hstep, ?_, hout, rfl, sidx_succ hi, rfl, fun b hb => ?_,
    ⟨rfl, rfl, rfl, rfl, rfl, rfl⟩, rfl, hf, rfl⟩
  · exact (congrArg sext16 (half_read_back hinv.memWf hspace _)).trans hout
  · exact readByte_memWrite_outside hinv.memWf hspace hb

/-- Settles O46. -/
theorem processEndsDone : Obligations.ProcessEndsDone := by
  intro s s' hE hbusy hi
  have hstep := step_of_engineMoves hE
  obtain ⟨rest, rfl⟩ := hE.same
  rw [engineStep_of_end (s := { s with inputs := rest }) hbusy hi] at hstep
  exact ⟨_, hstep, rfl, rfl, rfl, rfl, rfl, rfl, rfl, rfl, fun _ => rfl,
    ⟨rfl, rfl, rfl, rfl, rfl, rfl⟩, rfl, hE.1, rfl⟩

/-! ### Runs of the NSE (R175) -/

/-- What holds at the start of a run, and is carried on by each step of the NSE and kept by each step of
the host, holds after every run without a reset. -/
theorem EngineRun.carries {P : Nat → State → Prop} {s : State} (hstart : P 0 s)
    (hengine : ∀ k t t', P k t → EngineMoves t t' → P (k + 1) t'.engineStep)
    (hhost : ∀ k t u, P k t → (¬∃ t', EngineMoves t t') → HostStep t u → P k u)
    {k : Nat} {t : State} (h : EngineRun k s t) : P k t := by
  induction h with
  | start => exact hstart
  | @engine k s t u _ hE hstep ih =>
    obtain ⟨t', hE⟩ := hE
    rw [step_of_engineMoves hE] at hstep
    injection hstep with hu
    exact hu ▸ hengine k t t' (ih hstart) hE
  | @other k s t u _ hE hreset hstep ih =>
    obtain ⟨rest, hi, -⟩ | hH := step_not_engine hstep hE
    · exact absurd hi (hreset rest)
    · exact hhost k t u (ih hstart) hE hH

/-- A PROCESS of `n` samples is in progress and has done `k` of them. -/
structure InProgress (n k : Nat) (t : State) : Prop where
  busy : t.ctrl.busy = true
  status : t.ctrl.engStatus = .idle
  count : t.ctrl.sampleCount.toNat = n
  sidx : t.ctrl.sidx.toNat = k
  fits : t.ctrl.bufferFits
  notFaulted : t.faulted = none

/-- A PROCESS of `n` samples has ended. -/
structure Finished (n : Nat) (t : State) : Prop where
  busy : t.ctrl.busy = false
  status : t.ctrl.engStatus = .done
  count : t.ctrl.sampleCount.toNat = n
  sidx : t.ctrl.sidx.toNat = n
  notFaulted : t.faulted = none

section
variable {n k : Nat} {t u : State}

/-- A step of the host leaves the PROCESS in progress where it is. -/
theorem InProgress.hostStep (h : InProgress n k t) (hH : HostStep t u) : InProgress n k u := by
  obtain ⟨hbusy, hstatus, hcount, hsidx, hfits, hf⟩ := h
  constructor <;> simpa only [hH.ctrl, hH.faulted]

theorem Finished.hostStep (h : Finished n t) (hH : HostStep t u) : Finished n u := by
  obtain ⟨hbusy, hstatus, hcount, hsidx, hf⟩ := h
  constructor <;> simpa only [hH.ctrl, hH.faulted]

theorem InProgress.withInputs (h : InProgress n k t) (rest : List Input) :
    InProgress n k { t with inputs := rest } :=
  ⟨h.busy, h.status, h.count, h.sidx, h.fits, h.notFaulted⟩

/-- A sample step. -/
theorem InProgress.sample (h : InProgress n k t) (hk : k < n) :
    InProgress n (k + 1) t.engineStep := by
  have hi : t.ctrl.sidx.toNat < t.ctrl.sampleCount.toNat := by rwa [h.sidx, h.count]
  rw [engineStep_of_sample h.busy hi, processSample_fits h.fits hi]
  exact ⟨h.busy, h.status, h.count, (sidx_succ hi).trans (congrArg (· + 1) h.sidx), h.fits,
    h.notFaulted⟩

/-- The end step. -/
theorem InProgress.finish (h : InProgress n n t) : Finished n t.engineStep := by
  rw [engineStep_of_end h.busy (h.count.trans h.sidx.symm).le]
  exact ⟨rfl, rfl, h.count, h.sidx, h.notFaulted⟩

end

/-- Where a run of the NSE from `s` stands that starts a PROCESS of `n` samples: not begun, in progress
after up to `n + 1` steps, ended after `n + 2`; nothing is said of what comes later. -/
def ProcessPhase (s : State) (n : Nat) : Nat → State → Prop
  | 0, t => t = s
  | k + 1, t => (k ≤ n → InProgress n k t) ∧ (k = n + 1 → Finished n t)

section
variable {s s' : State} {p : PortInputs} {n : Nat} (hA : Accepts s s' p) (hcmd : p.cmd = 3)
  (hwrap : p.bufBase.toNat + p.bufLen.toNat ≤ 4294967296)
  (hc : cgValidate params s.mem p.bufBase.toNat p.bufLen.toNat = some n)
  (hfits : 44 + 2 * n ≤ p.bufLen.toNat)
include hA hcmd hwrap hc hfits

/-- The start step puts the PROCESS in progress. -/
theorem inProgress_of_accepts {t : State} (hstep : step s = .next t) : InProgress n 0 t := by
  obtain ⟨hf, rest, hnext⟩ := step_of_accepts_container hA hcmd hwrap hc hfits
  rw [hnext] at hstep
  injection hstep with ht
  subst ht
  have hcount := toNat_sampleCount hc
  exact ⟨rfl, rfl, hcount, rfl, ⟨hwrap, hcount.symm ▸ hfits⟩, hf⟩

/-- Every run from the acceptance is in the phase its count of steps says. -/
theorem EngineRun.processPhase {k : Nat} {t : State} (h : EngineRun k s t) :
    ProcessPhase s n k t := by
  refine h.carries (P := ProcessPhase s n) rfl (fun k t t' hP hE => ?_) (fun k t u hP hE hH => ?_)
  · cases k with
    | zero =>
      subst hP
      have hacc := inProgress_of_accepts hA hcmd hwrap hc hfits (step_of_engineMoves hE)
      exact ⟨fun _ => hacc, nofun⟩
    | succ k =>
      obtain ⟨rest, rfl⟩ := hE.same
      refine ⟨fun hk => ((hP.1 (by omega)).withInputs rest).sample hk, fun hk => ?_⟩
      obtain rfl : k = n := by omega
      exact ((hP.1 le_rfl).withInputs rest).finish
  · cases k with
    | zero =>
      subst hP
      exact absurd ⟨s', hA.1⟩ hE
    | succ k => exact ⟨fun hk => (hP.1 hk).hostStep hH, fun hk => (hP.2 hk).hostStep hH⟩

/-- Before the end of the PROCESS the NSE always has a step. -/
theorem EngineRun.engineReady_of_accepts {k : Nat} (hk : k < n + 2) {t : State}
    (h : EngineRun k s t) : t.faulted = none ∧ t.engineReady = true := by
  have hP := h.processPhase hA hcmd hwrap hc hfits
  cases k with
  | zero =>
    subst hP
    obtain ⟨hE, -, hport⟩ := hA
    obtain ⟨rest, rfl⟩ := hE.same
    have hport : t.port = some p := hport
    exact ⟨hE.1, by simp [State.engineReady, hport]⟩
  | succ k =>
    have hin := hP.1 (by omega)
    exact ⟨hin.notFaulted, by simp [State.engineReady, hin.busy]⟩

end

/-! ### Runs without inputs -/

/-- The start step of PROCESS takes no input, whatever its outcome. -/
theorem processStart_inputs (s : State) (b l : Word) : (s.processStart b l).inputs = s.inputs := by
  rw [State.processStart]
  split
  · rfl
  · dsimp only
    split
    · rfl
    · split <;> rfl

/-- A step of the NSE takes no input of its own. -/
theorem engineStep_inputs (s : State) : s.engineStep.inputs = s.inputs := by
  rw [State.engineStep]
  split
  · exact (processNext_keeps s).2.1
  · split
    · rw [State.runCommand]
      split
      · rfl
      · rfl
      · rfl
      · exact processStart_inputs _ _ _
    · rfl

/-- With no inputs, `m` steps of the machine are `m` steps of the NSE, as long as it is ready. -/
theorem run_engine_alone {s : State} (hi : s.inputs = []) {m : Nat}
    (hready : ∀ k < m, ∀ t, EngineRun k s t → t.faulted = none ∧ t.engineReady = true) :
    ∃ t : State, Host.Core.run core m s = .next t ∧ EngineRun m s t ∧ t.inputs = [] := by
  induction m with
  | zero => exact ⟨s, rfl, .start s, hi⟩
  | succ m ih =>
    obtain ⟨t, hrun, hE, hti⟩ := ih fun k hk => hready k (by omega)
    obtain ⟨hf, hr⟩ := hready m (by omega) t hE
    have hmoves : EngineMoves t t := ⟨hf, .inl ⟨hti, hr, rfl⟩⟩
    have hstep := step_of_engineMoves hmoves
    exact ⟨t.engineStep, (run_add hrun).trans (run_succ_of_next hstep),
      hE.engine ⟨t, hmoves⟩ hstep, (engineStep_inputs t).trans hti⟩

/-- Settles O47: the phases of every run, and for a run without inputs that the NSE is ready until the
end. -/
theorem processTakesExactlyNPlusTwoSteps : Obligations.ProcessTakesExactlyNPlusTwoSteps := by
  intro s s' p n hA hcmd hwrap hc hfits
  have inProgress (k : Nat) (t : State) (h : EngineRun (k + 1) s t) (hk : k ≤ n) :
      InProgress n k t := (h.processPhase hA hcmd hwrap hc hfits).1 hk
  have finished (t : State) (h : EngineRun (n + 2) s t) : Finished n t :=
    (h.processPhase hA hcmd hwrap hc hfits).2 rfl
  have alone (m : Nat) (hm : m ≤ n + 2) (hi : s.inputs = []) :=
    run_engine_alone hi fun k (hk : k < m) t h =>
      h.engineReady_of_accepts hA hcmd hwrap hc hfits (hk.trans_le hm)
  refine ⟨fun k t h hk => ?_, fun t h => ?_, fun hi k hk => ?_, fun hi => ?_⟩
  · have hin := inProgress k t h hk
    exact ⟨hin.busy, hin.status, hin.sidx, hin.count, hin.notFaulted⟩
  · have hfin := finished t h
    exact ⟨hfin.busy, hfin.status, hfin.sidx, hfin.count, hfin.notFaulted⟩
  · obtain ⟨t, hrun, h, -⟩ := alone (k + 1) (by omega) hi
    have hin := inProgress k t h hk
    exact ⟨t, hrun, h, hin.busy, hin.sidx⟩
  · obtain ⟨t, hrun, h, -⟩ := alone (n + 2) le_rfl hi
    have hfin := finished t h
    exact ⟨t, hrun, h, hfin.busy, hfin.status⟩

/-! ### The held command (R150, R266) -/

/-- Settles O50: on a free port the host is not stalled and the command goes there; with a command held
every move of the host waits, and the NSE goes on with its PROCESS. -/
theorem heldCommandWaitsAndStallsTheHost : Obligations.HeldCommandWaitsAndStallsTheHost := by
  refine ⟨fun s p rest hf hport hi hcode => ?_, fun s p i rest hf hbusy hport hi hne hnr => ?_⟩
  · have hw : s.mustWait (.present p) = false := by
      rw [State.mustWait, ← Bool.not_eq_true, hostStalled_iff, touchesBuffer_iff]
      rintro (hp | ⟨htrap, hbusy, j, hj, hin⟩)
      · simp [hport] at hp
      · exact hcode hbusy htrap j hj hin
    exact step_of_input hf hi hw
  · have hstalled : s.hostStalled = true := hostStalled_iff.mpr (.inl (by simp [hport]))
    have hstep := step_of_waiting hf hi (mustWait_of_hostStalled hstalled hne hnr)
    rw [engineStep_busy hbusy] at hstep
    obtain ⟨hhost, hinputs, hkept⟩ := processNext_keeps s
    exact ⟨_, hstep, hkept.trans hport, hinputs, hhost, rfl⟩

end Sys2Proof.Machine
end

section
/-!
The statements of the Container Gate (spec/42_container_gate.md R200 to R209): the header the gate
accepts, the outcomes of PROCESS that write nothing, and what an accepted container holds after it.
-/
namespace Sys2Proof.Machine

/-! ### The header (R200 to R206) -/

/-- Four bytes of memory are a tag exactly when each is (R201). -/
theorem memBytes_four_beq_iff {m : Memory} {a : Nat} {b0 b1 b2 b3 : Byte} :
    (memBytes m a 4 == [b0, b1, b2, b3]) = true ↔
      (readByte m a).toNat = b0.toNat ∧ (readByte m (a + 1)).toNat = b1.toNat ∧
        (readByte m (a + 2)).toNat = b2.toNat ∧ (readByte m (a + 3)).toNat = b3.toNat := by
  simp [memBytes, BitVec.toNat_inj]

/-- A little-endian scalar of two bytes that is below 256 (R202). -/
theorem memRead_two_beq_iff {m : Memory} {a v : Nat} (hv : v < 256) :
    (memRead m a 2 == v) = true ↔
      (readByte m a).toNat = v ∧ (readByte m (a + 1)).toNat = 0 := by
  have h0 := (readByte m a).isLt
  simp only [memRead, beq_iff_eq]
  omega

/-- The payload length, byte by byte (R206). -/
theorem memRead_four (m : Memory) (a : Nat) :
    memRead m a 4 = (readByte m a).toNat + 256 * (readByte m (a + 1)).toNat +
      65536 * (readByte m (a + 2)).toNat + 16777216 * (readByte m (a + 3)).toNat := by
  simp only [memRead, Nat.add_assoc, Nat.reduceAdd]
  omega

/-- What the gate accepts, and the sample count it gives (R204 to R206). -/
theorem cgValidate_eq_some_iff {m : Memory} {base len n : Nat} :
    cgValidate params m base len = some n ↔ 44 ≤ len ∧ tagsOk m base = true ∧
      scalarsOk m base = true ∧ n = memRead m (base + 40) 4 / 2 := by
  rw [cgValidate]
  split
  case isTrue hshort =>
    have hshort : len < 44 := hshort
    exact ⟨nofun, fun h => absurd h.1 (by omega)⟩
  case isFalse hlong =>
    have hlong : ¬len < 44 := hlong
    split
    case isTrue hok =>
      rw [Bool.and_eq_true] at hok
      rw [Option.some_inj]
      exact ⟨fun h => ⟨by omega, hok.1, hok.2, h.symm⟩, fun h => h.2.2.2.symm⟩
    case isFalse hbad =>
      rw [Bool.and_eq_true] at hbad
      exact ⟨nofun, fun h => absurd ⟨h.2.1, h.2.2.1⟩ hbad⟩

/-- Settles O44: the checks read off byte by byte. -/
theorem gateAcceptsExactlyValidHeaders : Obligations.GateAcceptsExactlyValidHeaders := by
  intro m base len n at_
  rw [cgValidate_eq_some_iff, memRead_four]
  simp only [tagsOk, scalarsOk, tagRiff, tagWave, tagFmt, tagData, Bool.and_eq_true,
    memBytes_four_beq_iff, memRead_two_beq_iff (show 1 < 256 by decide),
    memRead_two_beq_iff (show 16 < 256 by decide), and_assoc]
  rfl

/-! ### The outcomes of PROCESS that write nothing (R207, R208, R233, R234) -/

/-- Settles O41. -/
theorem processFaultsWithoutWriting : Obligations.ProcessFaultsWithoutWriting := by
  intro s s' p hA hcmd
  obtain ⟨-, rest, -, hstep⟩ := step_of_accepts hA
  rw [runCommand_process hcmd] at hstep
  refine ⟨fun hwrap => ?_, fun n hwrap hc hover => ?_⟩
  · rw [processStart_wraps hwrap] at hstep
    exact ⟨_, hstep, rfl, rfl, fun _ => rfl, rfl, rfl, ⟨rfl, rfl, rfl, rfl, rfl, rfl⟩,
      step_of_faulted rfl⟩
  · rw [processStart_overruns (s := { s with inputs := rest, port := none }) hwrap hc hover] at hstep
    exact ⟨_, hstep, rfl, rfl, fun _ => rfl, rfl, ⟨rfl, rfl, rfl, rfl, rfl, rfl⟩,
      step_of_faulted rfl⟩

/-- Settles O42. -/
theorem rejectionIsSilent : Obligations.RejectionIsSilent := by
  intro s s' p hA hcmd hwrap hc
  obtain ⟨hf, rest, -, hstep⟩ := step_of_accepts hA
  rw [runCommand_process hcmd,
    processStart_rejects (s := { s with inputs := rest, port := none }) hwrap hc] at hstep
  exact ⟨_, hstep, rfl, rfl, rfl, rfl, rfl, rfl, fun _ => rfl, ⟨rfl, rfl, rfl, rfl, rfl, rfl⟩, hf,
    rfl⟩

/-! ### The payload in memory (R26, R52) -/

theorem length_payload (m : Memory) (base n : Nat) : (payload m base n).length = n := by
  simp [payload]

theorem getElem_payload {m : Memory} {base n i : Nat} (h : i < (payload m base n).length) :
    (payload m base n)[i] = sext16 (BitVec.ofNat 16 (memRead m (base + 44 + 2 * i) 2)) := by
  simp [payload]

/-- A payload depends on its own bytes alone. -/
theorem payload_congr {m m' : Memory} {base n : Nat}
    (h : ∀ a, base + 44 ≤ a → a < base + 44 + 2 * n → readByte m' a = readByte m a) :
    payload m' base n = payload m base n := by
  refine List.map_congr_left fun i hi => ?_
  have hi := List.mem_range.mp hi
  rw [memRead_congr fun c h1 h2 => h c (by omega) (by omega)]

/-- A 16-bit write over sample `k` replaces that sample and no other. -/
theorem payload_memWrite {m : Memory} (hm : m.wf = true) {base n k : Nat} (hk : k < n)
    (hspace : base + 44 + 2 * n ≤ addressLimit) (v : Half) :
    payload (memWrite m (base + 44 + 2 * k) 2 v.toNat) base n =
      (payload m base n).set k (sext16 v) := by
  have hwrite : base + 44 + 2 * k + 2 ≤ addressLimit := by omega
  refine List.ext_getElem (by simp [length_payload]) fun i h1 h2 => ?_
  rw [getElem_payload, List.getElem_set]
  split
  case isTrue hik =>
    subst hik
    rw [half_read_back hm hwrite]
  case isFalse hik =>
    rw [getElem_payload,
      memRead_congr fun c h1 h2 => readByte_memWrite_outside hm hwrite (by omega)]

/-! ### Streams, sample by sample (R173) -/

section
variable (f : FilterState) {xs : List Int} {k : Nat}

theorem streamOutputs_take (xs : List Int) (k : Nat) :
    streamOutputs f (xs.take k) = (streamOutputs f xs).take k := by
  induction xs generalizing f k with
  | nil => simp [streamOutputs]
  | cons x xs ih => cases k <;> simp [streamOutputs, ih]

theorem streamFilter_take_succ (hk : k < xs.length) :
    streamFilter f (xs.take (k + 1)) =
      (sampleStep params (streamFilter f (xs.take k)) xs[k]).1 := by
  rw [← List.take_append_getElem hk, streamFilter_append]
  rfl

/-- With the first `k` samples replaced by their outputs, replacing sample `k` by its output too. -/
theorem set_streamOutputs_take (hk : k < xs.length) :
    (streamOutputs f (xs.take k) ++ xs.drop k).set k
        (sampleStep params (streamFilter f (xs.take k)) xs[k]).2 =
      streamOutputs f (xs.take (k + 1)) ++ xs.drop (k + 1) := by
  have hlen : (streamOutputs f (xs.take k)).length = k := by
    rw [length_streamOutputs, List.length_take_of_le hk.le]
  rw [List.set_append_right _ _ hlen.le, hlen, Nat.sub_self, List.drop_eq_getElem_cons hk,
    List.set_cons_zero, ← List.take_append_getElem hk, streamOutputs_append, List.append_assoc]
  rfl

end

/-! ### A PROCESS in place (R61, R172, R209) -/

/-- A PROCESS of the `n` samples of the container that `s` holds where `p` says, after `k` of them: the
buffer holds `k` outputs and then the samples as they were, its other bytes are those of `s`, and so is
every other byte of memory if `s` has no inputs, for then there are none still. -/
structure FiltersInPlace (s : State) (p : PortInputs) (n k : Nat) (t : State) : Prop
    extends InProgress n k t where
  bufBase : t.ctrl.bufBase = p.bufBase
  bufLen : t.ctrl.bufLen = p.bufLen
  memWf : t.mem.wf = true
  samples : payload t.mem p.bufBase.toNat n =
    streamOutputs FilterState.zero ((payload s.mem p.bufBase.toNat n).take k) ++
      (payload s.mem p.bufBase.toNat n).drop k
  filter : t.filter = streamFilter FilterState.zero ((payload s.mem p.bufBase.toNat n).take k)
  outside : ∀ a, s.inputs = [] ∨
      (p.bufBase.toNat ≤ a ∧ a < p.bufBase.toNat + p.bufLen.toNat) →
    ¬(p.bufBase.toNat + 44 ≤ a ∧ a < p.bufBase.toNat + 44 + 2 * n) →
    readByte t.mem a = readByte s.mem a
  alone : s.inputs = [] → t.inputs = []

namespace FiltersInPlace
variable {s t u : State} {p : PortInputs} {n k : Nat}

/-- The samples end in the buffer, and the buffer in the address space (R54, R207). -/
theorem inBuffer (h : FiltersInPlace s p n k t) :
    44 + 2 * n ≤ p.bufLen.toNat ∧ p.bufBase.toNat + p.bufLen.toNat ≤ addressLimit := by
  obtain ⟨hspace, hlen⟩ := h.fits
  rw [h.bufLen, h.count] at hlen
  rw [h.bufBase, h.bufLen] at hspace
  exact ⟨hlen, hspace⟩

/-- The sample that the NSE reads next is still the container's own (R61). -/
theorem sampleIn_eq (h : FiltersInPlace s p n k t)
    (hk : k < (payload s.mem p.bufBase.toNat n).length) :
    t.sampleIn = (payload s.mem p.bufBase.toNat n)[k] := by
  have hlen : (streamOutputs FilterState.zero
      ((payload s.mem p.bufBase.toNat n).take k)).length = k := by
    rw [length_streamOutputs, List.length_take_of_le hk.le]
  have hread : t.sampleIn = (payload t.mem p.bufBase.toNat n)[k]'(by
      rwa [length_payload] at hk ⊢) := by
    rw [getElem_payload, State.sampleIn, sampleAddress_eq, h.bufBase, h.sidx]
    rfl
  simp [hread, h.samples, List.getElem_append_right, hlen]

theorem withInputs (h : FiltersInPlace s p n k t) {rest : List Input}
    (hrest : t.inputs = [] → rest = []) : FiltersInPlace s p n k { t with inputs := rest } :=
  { h with
    toInProgress := h.toInProgress.withInputs rest
    alone := fun hs => hrest (h.alone hs) }

/-- A sample step replaces the next sample by its output. -/
theorem sample (h : FiltersInPlace s p n k t) (hk : k < n) :
    FiltersInPlace s p n (k + 1) t.engineStep := by
  obtain ⟨hfits, hspace⟩ := h.inBuffer
  have hin := h.toInProgress.sample hk
  have hi : t.ctrl.sidx.toNat < t.ctrl.sampleCount.toNat := by rwa [h.sidx, h.count]
  have hlen : k < (payload s.mem p.bufBase.toNat n).length := by rwa [length_payload]
  have haddr : t.sampleAddress = p.bufBase.toNat + 44 + 2 * k := by
    rw [sampleAddress_eq, h.bufBase, h.sidx]
  rw [engineStep_of_sample h.busy hi, processSample_fits h.toInProgress.fits hi, haddr,
    h.sampleIn_eq hlen, h.filter] at hin ⊢
  refine ⟨hin, h.bufBase, h.bufLen, wf_memWrite h.memWf (by omega), ?_,
    (streamFilter_take_succ _ hlen).symm, fun a ha hout => ?_, h.alone⟩
  · rw [← set_streamOutputs_take _ hlen, ← h.samples]
    exact (payload_memWrite h.memWf hk (by omega) _).trans
      (by rw [sext16_sampleStep_output])
  · exact (readByte_memWrite_outside h.memWf (by omega) (by omega)).trans (h.outside a ha hout)

/-- A step of the host leaves the PROCESS and its buffer where they are; without inputs there is none. -/
theorem hostStep (h : FiltersInPlace s p n k t) (hE : ¬∃ t', EngineMoves t t')
    (hH : HostStep t u) : FiltersInPlace s p n k u := by
  obtain ⟨hfits, -⟩ := h.inBuffer
  have hinputs : s.inputs ≠ [] := fun hs => hE ⟨t, h.notFaulted,
    .inl ⟨h.alone hs, by simp [State.engineReady, h.busy], rfl⟩⟩
  have hbytes (a : Nat) (h1 : p.bufBase.toNat ≤ a)
      (h2 : a < p.bufBase.toNat + p.bufLen.toNat) : readByte u.mem a = readByte t.mem a :=
    hH.offBuffer h.memWf h.busy a (by rwa [h.bufBase]) (by rwa [h.bufBase, h.bufLen])
  refine ⟨h.toInProgress.hostStep hH, hH.ctrl ▸ h.bufBase, hH.ctrl ▸ h.bufLen, hH.memWf h.memWf, ?_,
    hH.filter.trans h.filter, fun a ha hout => ?_, fun hs => absurd hs hinputs⟩
  · rw [payload_congr fun a h1 h2 => hbytes a (by omega) (by omega), h.samples]
  · obtain ⟨h1, h2⟩ := ha.resolve_left hinputs
    exact (hbytes a h1 h2).trans (h.outside a ha hout)

end FiltersInPlace

/-- Where a run of the NSE from `s` stands in filtering the container, up to its last sample; nothing is
said of the end step and what comes after. -/
def InPlacePhase (s : State) (p : PortInputs) (n : Nat) : Nat → State → Prop
  | 0, t => t = s
  | k + 1, t => k ≤ n → FiltersInPlace s p n k t

/-- An NSE's turn takes no input where there is none. -/
theorem EngineMoves.inputs_eq_nil {s s' : State} (hE : EngineMoves s s') (hs : s.inputs = []) :
    s'.inputs = [] := by
  obtain ⟨-, ⟨-, -, rfl⟩ | ⟨rest, hi, -⟩ | ⟨i, rest, hi, -, -⟩⟩ := hE
  · exact hs
  · simp [hs] at hi
  · simp [hs] at hi

section
variable {s s' : State} {p : PortInputs} {n : Nat} (hm : s.mem.wf = true) (hA : Accepts s s' p)
  (hcmd : p.cmd = 3) (hwrap : p.bufBase.toNat + p.bufLen.toNat ≤ 4294967296)
  (hc : cgValidate params s.mem p.bufBase.toNat p.bufLen.toNat = some n)
  (hfits : 44 + 2 * n ≤ p.bufLen.toNat)
include hm hA hcmd hwrap hc hfits

/-- The start step writes nothing and starts from the zero Filter State (R209). -/
theorem filtersInPlace_of_accepts {t' : State} (hE : EngineMoves s t') :
    FiltersInPlace s p n 0 t'.engineStep := by
  have hstep := step_of_engineMoves hE
  have hin := inProgress_of_accepts hA hcmd hwrap hc hfits hstep
  have halone : s.inputs = [] → t'.engineStep.inputs = [] := fun hs =>
    (engineStep_inputs t').trans (hE.inputs_eq_nil hs)
  obtain ⟨-, rest, hnext⟩ := step_of_accepts_container hA hcmd hwrap hc hfits
  injection hstep.symm.trans hnext with ht
  rw [ht] at hin halone ⊢
  exact ⟨hin, rfl, rfl, hm, rfl, rfl, fun _ _ _ => rfl, halone⟩

/-- Every run from the acceptance filters the container in place. -/
theorem EngineRun.filtersInPlace {k : Nat} {t : State} (h : EngineRun (k + 1) s t) (hk : k ≤ n) :
    FiltersInPlace s p n k t := by
  refine h.carries (P := InPlacePhase s p n) rfl (fun j t t' hP hE => ?_)
    (fun j t u hP hE hH => ?_) hk
  · cases j with
    | zero =>
      subst hP
      exact fun _ => filtersInPlace_of_accepts hm hA hcmd hwrap hc hfits hE
    | succ j =>
      intro hj
      have hrest := hE.inputs_eq_nil
      obtain ⟨rest, rfl⟩ := hE.same
      exact ((hP (by omega)).withInputs hrest).sample hj
  · cases j with
    | zero =>
      subst hP
      exact absurd ⟨s', hA.1⟩ hE
    | succ j => exact fun hj => (hP hj).hostStep hE hH

end

/-- The end step changes neither memory nor the Filter State (R172). -/
theorem InProgress.step_of_end {n : Nat} {t t' u : State} (h : InProgress n n t)
    (hE : EngineMoves t t') (hstep : step t = .next u) : u.mem = t.mem ∧ u.filter = t.filter := by
  rw [step_of_engineMoves hE] at hstep
  injection hstep with hu
  obtain ⟨rest, rfl⟩ := hE.same
  rw [engineStep_of_end (s := { t with inputs := rest }) h.busy
    (h.count.trans h.sidx.symm).le] at hu
  subst hu
  exact ⟨rfl, rfl⟩

/-- Settles O48: after its last sample the PROCESS has replaced the whole payload, and the end step keeps
it; without inputs the machine takes that run. -/
theorem processFiltersThePayloadInPlace : Obligations.ProcessFiltersThePayloadInPlace := by
  intro s s' p n hm hA hcmd hwrap hc hfits xs
  have filtered (k : Nat) (t : State) (h : EngineRun (k + 1) s t) (hk : k ≤ n) :
      FiltersInPlace s p n k t := h.filtersInPlace hm hA hcmd hwrap hc hfits hk
  have all : xs.length ≤ n := (length_payload _ _ _).le
  have ended (t u : State) (h : EngineRun (n + 1) s t) (hE : ∃ t', EngineMoves t t')
      (hstep : step t = .next u) : payload u.mem p.bufBase.toNat n = streamOutputs .zero xs ∧
        u.filter = streamFilter .zero xs ∧ SameBytes t u := by
    have hin := filtered n t h le_rfl
    obtain ⟨t', hE⟩ := hE
    obtain ⟨hmem, hfilter⟩ := hin.toInProgress.step_of_end hE hstep
    have hsamples := hin.samples
    have hstate := hin.filter
    rw [List.take_of_length_le all, List.drop_eq_nil_of_le all, List.append_nil] at hsamples
    rw [List.take_of_length_le all] at hstate
    exact ⟨hmem ▸ hsamples, hfilter.trans hstate, fun a => by rw [hmem]⟩
  refine ⟨fun k t h hk => ?_, ended, fun hi => ?_⟩
  · have hin := filtered k t h hk
    exact ⟨streamOutputs_take .zero xs k ▸ hin.samples, hin.filter,
      fun a h1 h2 => hin.outside a (.inr ⟨h1, h2⟩)⟩
  · obtain ⟨t, hrun, h, hti⟩ := run_engine_alone hi fun k (hk : k < n + 1) t h =>
      h.engineReady_of_accepts hA hcmd hwrap hc hfits (by omega)
    obtain ⟨hf, hr⟩ := h.engineReady_of_accepts hA hcmd hwrap hc hfits (by omega)
    have hE : EngineMoves t t := ⟨hf, .inl ⟨hti, hr, rfl⟩⟩
    have hstep := step_of_engineMoves hE
    obtain ⟨hsamples, hstate, hbytes⟩ := ended t _ h ⟨t, hE⟩ hstep
    exact ⟨_, (run_add (j := 1) hrun).trans (run_succ_of_next hstep), hsamples, hstate,
      fun a ha => (hbytes a).trans ((filtered n t h le_rfl).outside a (.inl hi) ha)⟩

end Sys2Proof.Machine
end

section
/-!
The statement that the NSE's step neither reads nor writes what is the host's (spec/60_exceptions.md R235,
R236). One commuting lemma for each operation of the NSE says both halves at once: with the host's part
replaced before the step or after it, the result is the same state.
-/
namespace Sys2Proof.Machine

/-- `s` with all that is the host's, and the coming inputs, as `t` has them: the fields `SameHost` names and
`inputs`. -/
def State.withHostOf (s t : State) : State :=
  { s with
    regs := t.regs, pc := t.pc, trap := t.trap, driven := t.driven, portMap := t.portMap,
    draws := t.draws, inputs := t.inputs }

theorem sameHost_withHostOf (s t : State) : SameHost s (t.withHostOf s) :=
  ⟨rfl, rfl, rfl, rfl, rfl, rfl⟩

/-! ### The NSE's operations and the host's part (R15, R235) -/

/-- A sample's two fault checks, its read and its write are of the block and memory alone (R54, R172). -/
theorem processSample_withHostOf (s t : State) :
    (s.withHostOf t).processSample = s.processSample.withHostOf t := by
  rw [State.processSample, State.processSample, apply_ite (State.withHostOf · t),
    apply_ite (State.withHostOf · t)]
  rfl

theorem processNext_withHostOf (s t : State) :
    (s.withHostOf t).processNext = s.processNext.withHostOf t := by
  rw [State.processNext, State.processNext, apply_ite (State.withHostOf · t),
    processSample_withHostOf]
  rfl

/-- The four outcomes of the start step, which the command, memory and the length decide (R172, R234). -/
theorem processStart_withHostOf (s t : State) (b l : Word) :
    (s.withHostOf t).processStart b l = (s.processStart b l).withHostOf t := by
  by_cases hwrap : b.toNat + l.toNat > 4294967296
  · rw [processStart_wraps hwrap, processStart_wraps hwrap]
    rfl
  · have hfit : b.toNat + l.toNat ≤ 4294967296 := Nat.not_lt.1 hwrap
    cases hc : cgValidate params s.mem b.toNat l.toNat with
    | none =>
      rw [processStart_rejects hfit hc, processStart_rejects (s := s.withHostOf t) hfit hc]
      rfl
    | some n =>
      by_cases hn : 44 + 2 * n > l.toNat
      · rw [processStart_overruns hfit hc hn,
          processStart_overruns (s := s.withHostOf t) hfit hc hn]
        rfl
      · have hn : 44 + 2 * n ≤ l.toNat := Nat.not_lt.1 hn
        rw [processStart_accepts hfit hc hn,
          processStart_accepts (s := s.withHostOf t) hfit hc hn]
        rfl

theorem runCommand_withHostOf (s t : State) (p : PortInputs) :
    (s.withHostOf t).runCommand p = (s.runCommand p).withHostOf t := by
  rw [State.runCommand, State.runCommand]
  split
  · rfl
  · rfl
  · rfl
  · exact processStart_withHostOf s t _ _

/-- A step of the NSE commutes with replacing what is the host's: it neither reads nor writes it (R235,
R236). -/
theorem engineStep_withHostOf (s t : State) :
    (s.withHostOf t).engineStep = s.engineStep.withHostOf t := by
  rw [State.engineStep, State.engineStep, apply_ite (State.withHostOf · t)]
  refine if_congr Iff.rfl (processNext_withHostOf s t) ?_
  rw [show (s.withHostOf t).port = s.port from rfl]
  cases s.port with
  | none => rfl
  | some p => exact runCommand_withHostOf { s with port := none } t p

/-- A step of the NSE changes nothing of the host's (R236): put back what the host had, and the state is
the same. -/
theorem sameHost_engineStep (s : State) : SameHost s s.engineStep := by
  have hback : s.engineStep = s.engineStep.withHostOf s := engineStep_withHostOf s s
  rw [hback]
  exact sameHost_withHostOf s s.engineStep

/-- Settles O53: with any other host's part the NSE's step gives the same state but for that part. -/
theorem engineStepIgnoresTheHost : Obligations.EngineStepIgnoresTheHost := by
  intro s regs pc trap driven portMap draws inputs s'
  have hstep : s'.engineStep = s.engineStep.withHostOf s' := engineStep_withHostOf s s'
  rw [hstep]
  exact ⟨rfl, rfl, rfl, rfl, rfl, sameHost_engineStep s, engineStep_inputs s⟩

end Sys2Proof.Machine
end

section
/-!
The statement of the hardware reset (spec/70_reset_and_hazards.md R260).
-/
namespace Sys2Proof.Machine

/-- No stall of the host holds a hardware reset back: with that input next, the step is the reset. -/
theorem step_of_reset {s : State} {rest : List Input} (hf : s.faulted = none)
    (hi : s.inputs = .reset :: rest) :
    step s = .next (State.blockReset { s with inputs := rest }) :=
  step_of_input hf hi rfl

/-- A hardware reset leaves the host's registers and the platform's placement of the ports (R39). -/
theorem sameHost_blockReset (s : State) (rest : List Input) :
    SameHost s (State.blockReset { s with inputs := rest }) where
  regs := State.blockReset_regs _
  pc := State.blockReset_pc _
  trap := State.blockReset_trap _
  driven := State.blockReset_driven _
  portMap := State.blockReset_portMap _
  draws := State.blockReset_draws _

/-- A hardware reset leaves the bytes a PROCESS has written (R260). -/
theorem sameBytes_blockReset (s : State) (rest : List Input) :
    SameBytes s (State.blockReset { s with inputs := rest }) := by
  intro a
  rw [State.blockReset_mem]

/-- Settles O55: the step is the block's reset, whose registers are those of the reset state. -/
theorem hardwareResetClearsTheBlock : Obligations.HardwareResetClearsTheBlock := by
  intro s rest hf hi
  exact ⟨_, step_of_reset hf hi, State.blockReset_filter _, State.blockReset_ctrl _,
    State.blockReset_port _, (State.blockReset_faulted _).trans hf, sameBytes_blockReset s rest,
    sameHost_blockReset s rest, State.blockReset_inputs _⟩

end Sys2Proof.Machine
end
